-- ==== Sys2Proof/Word.lean ====
section
/-! DEFINITION. The word and byte types of the machine (spec/00_scope.md R8). -/

namespace Sys2Proof

/-- Every architectural value is a 16-bit word (R8, R11); an address is one too (R40). -/
abbrev Word := BitVec 16

/-- A console character, or a byte of the wire image (R34, R52). -/
abbrev Byte := BitVec 8

end Sys2Proof
end

