-- ==== Sys2Proof/Syntax.lean ====
section
/-! DEFINITION. The instructions: one constructor for each row of spec/opcode_table.json, in the table's order. -/

namespace Sys2Proof

/-- A general register's number, R0 to R7 (10_state.md R20). -/
abbrev Reg := Fin 8

/-- An instruction with the fields of its encoding (30_encoding.md R61, R69). Immediates are kept as the raw fields;
the machine extends them (R63). -/
inductive Instr where
  /-- BR: mask bits n, z, p and PCoffset9 (R150). -/
  | br (n z p : Bool) (off : BitVec 9)
  /-- ADD, register mode (R100). -/
  | addReg (dr sr1 sr2 : Reg)
  /-- ADD, immediate mode (R101). -/
  | addImm (dr sr1 : Reg) (imm : BitVec 5)
  /-- LD (R120). -/
  | ld (dr : Reg) (off : BitVec 9)
  /-- ST (R124). -/
  | st (sr : Reg) (off : BitVec 9)
  /-- JSR (R154). -/
  | jsr (off : BitVec 11)
  /-- JSRR (R155). -/
  | jsrr (base : Reg)
  /-- AND, register mode (R102). -/
  | andReg (dr sr1 sr2 : Reg)
  /-- AND, immediate mode (R103). -/
  | andImm (dr sr1 : Reg) (imm : BitVec 5)
  /-- LDR (R122). -/
  | ldr (dr base : Reg) (off : BitVec 6)
  /-- STR (R126). -/
  | str (sr base : Reg) (off : BitVec 6)
  /-- RTI, which faults (R157). -/
  | rti
  /-- NOT (R104). -/
  | not (dr sr : Reg)
  /-- LDI (R121). -/
  | ldi (dr : Reg) (off : BitVec 9)
  /-- STI (R125). -/
  | sti (sr : Reg) (off : BitVec 9)
  /-- JMP (R152); `JMP R7` is `ret`. -/
  | jmp (base : Reg)
  /-- The reserved opcode 0xD, which faults (R158). -/
  | reserved
  /-- LEA (R123). -/
  | lea (dr : Reg) (off : BitVec 9)
  /-- TRAP (R170); with a recognised vector it is one of the services below. -/
  | trap (vect : BitVec 8)
  /-- RET, the name of `JMP R7` (R152, R74). -/
  | ret
  /-- GETC, the name of `TRAP x20` (R173). -/
  | getc
  /-- OUT, the name of `TRAP x21` (R174). -/
  | out
  /-- PUTS, the name of `TRAP x22` (R175). -/
  | puts
  /-- IN, the name of `TRAP x23` (R176). -/
  | inp
  /-- PUTSP, the name of `TRAP x24` (R177). -/
  | putsp
  /-- HALT, the name of `TRAP x25` (R178). -/
  | halt
deriving DecidableEq, Repr

end Sys2Proof
end

