-- ==== Sys2Proof/WellFormed.lean ====
section
/-! DEFINITION. Which terms of `Instr` are well formed. Field widths are in the types; what is left to check is that a
word of JMP or TRAP that the opcode table gives a name of its own is written under that name (assumption log 14). -/

namespace Sys2Proof

/-- `jmp R7` is written `ret` (30_encoding.md R74), and `trap` with a vector of 43_trap.md R171's table, 0x20 to 0x25,
is written as its service. Every other term is well formed. -/
def Instr.wellFormed : Instr → Bool
  | .jmp base => base != 7
  | .trap vect => vect.toNat < 0x20 || 0x25 < vect.toNat
  | .br _ _ _ _ | .addReg _ _ _ | .addImm _ _ _ | .ld _ _ | .st _ _ | .jsr _ | .jsrr _ | .andReg _ _ _
  | .andImm _ _ _ | .ldr _ _ _ | .str _ _ _ | .rti | .not _ _ | .ldi _ _ | .sti _ _ | .reserved | .lea _ _
  | .ret | .getc | .out | .puts | .inp | .putsp | .halt => true

end Sys2Proof
end

