-- ==== Sys2Proof/Decode.lean ====
section
/-! DEFINITION. The decoder, a total function on words (30_encoding.md R69), and the encoder, written from the formats
of R62. Field positions are the spec's decision D1 (assumption log 13). -/

namespace Sys2Proof

/-- The `n` bits of `w` from bit `lo` up: `w[lo+n-1:lo]` (00_scope.md R10). -/
def bits (w : Word) (lo n : Nat) : BitVec n := w.extractLsb' lo n

/-- Bit `k` of `w` (R10). -/
def bit (w : Word) (k : Nat) : Bool := w.getLsbD k

/-- The register a 3-bit field names (R64). -/
def regOf (f : BitVec 3) : Reg := f.toFin

/-- The 3-bit field that names a register (R64). -/
def regBits (r : Reg) : BitVec 3 := BitVec.ofFin r

/-- Opcode 0x0, BR (R62, R66). -/
def decodeBr (w : Word) : Instr := .br (bit w 11) (bit w 10) (bit w 9) (bits w 0 9)

/-- Opcode 0x1, ADD: bit 5 chooses the operand form (R65). -/
def decodeAdd (w : Word) : Instr :=
  if bit w 5 then .addImm (regOf (bits w 9 3)) (regOf (bits w 6 3)) (bits w 0 5)
  else .addReg (regOf (bits w 9 3)) (regOf (bits w 6 3)) (regOf (bits w 0 3))

/-- Opcode 0x4: bit 11 chooses JSR or JSRR (R67). -/
def decodeJsr (w : Word) : Instr :=
  if bit w 11 then .jsr (bits w 0 11) else .jsrr (regOf (bits w 6 3))

/-- Opcode 0x5, AND: bit 5 chooses the operand form (R65). -/
def decodeAnd (w : Word) : Instr :=
  if bit w 5 then .andImm (regOf (bits w 9 3)) (regOf (bits w 6 3)) (bits w 0 5)
  else .andReg (regOf (bits w 9 3)) (regOf (bits w 6 3)) (regOf (bits w 0 3))

/-- Opcode 0xC, JMP; with BaseR = R7 it is RET (R152, R74). -/
def decodeJmp (w : Word) : Instr :=
  if regOf (bits w 6 3) = 7 then .ret else .jmp (regOf (bits w 6 3))

/-- The instruction a trap vector stands for (43_trap.md R171; the codes are the spec's decision D6). -/
def decodeVector (v : BitVec 8) : Instr :=
  match v.toNat with
  | 0x20 => .getc
  | 0x21 => .out
  | 0x22 => .puts
  | 0x23 => .inp
  | 0x24 => .putsp
  | 0x25 => .halt
  | _ => .trap v

/-- R69's decoder. Bits marked `x` in R62 are not looked at (R68), and no word is refused: 0xD and RTI decode to
instructions whose meaning faults (R72). -/
def decode (w : Word) : Instr :=
  match (bits w 12 4).toNat with
  | 0x0 => decodeBr w
  | 0x1 => decodeAdd w
  | 0x2 => .ld (regOf (bits w 9 3)) (bits w 0 9)
  | 0x3 => .st (regOf (bits w 9 3)) (bits w 0 9)
  | 0x4 => decodeJsr w
  | 0x5 => decodeAnd w
  | 0x6 => .ldr (regOf (bits w 9 3)) (regOf (bits w 6 3)) (bits w 0 6)
  | 0x7 => .str (regOf (bits w 9 3)) (regOf (bits w 6 3)) (bits w 0 6)
  | 0x8 => .rti
  | 0x9 => .not (regOf (bits w 9 3)) (regOf (bits w 6 3))
  | 0xA => .ldi (regOf (bits w 9 3)) (bits w 0 9)
  | 0xB => .sti (regOf (bits w 9 3)) (bits w 0 9)
  | 0xC => decodeJmp w
  | 0xD => .reserved
  | 0xE => .lea (regOf (bits w 9 3)) (bits w 0 9)
  | _ => decodeVector (bits w 0 8)

/-- One bit as a field of width 1. -/
def bitField (b : Bool) : BitVec 1 := BitVec.ofBool b

/-- The word of an instruction: R62's formats, with the standard values in the bits marked `x` (R62, R73). -/
def encode : Instr → Word
  | .br n z p off => 0x0#4 ++ bitField n ++ bitField z ++ bitField p ++ off
  | .addReg dr sr1 sr2 => 0x1#4 ++ regBits dr ++ regBits sr1 ++ 0b000#3 ++ regBits sr2
  | .addImm dr sr1 imm => 0x1#4 ++ regBits dr ++ regBits sr1 ++ 1#1 ++ imm
  | .ld dr off => 0x2#4 ++ regBits dr ++ off
  | .st sr off => 0x3#4 ++ regBits sr ++ off
  | .jsr off => 0x4#4 ++ 1#1 ++ off
  | .jsrr base => 0x4#4 ++ 0b000#3 ++ regBits base ++ 0b000000#6
  | .andReg dr sr1 sr2 => 0x5#4 ++ regBits dr ++ regBits sr1 ++ 0b000#3 ++ regBits sr2
  | .andImm dr sr1 imm => 0x5#4 ++ regBits dr ++ regBits sr1 ++ 1#1 ++ imm
  | .ldr dr base off => 0x6#4 ++ regBits dr ++ regBits base ++ off
  | .str sr base off => 0x7#4 ++ regBits sr ++ regBits base ++ off
  | .rti => 0x8000#16
  | .not dr sr => 0x9#4 ++ regBits dr ++ regBits sr ++ 0b111111#6
  | .ldi dr off => 0xA#4 ++ regBits dr ++ off
  | .sti sr off => 0xB#4 ++ regBits sr ++ off
  | .jmp base => 0xC#4 ++ 0b000#3 ++ regBits base ++ 0b000000#6
  | .reserved => 0xD000#16
  | .lea dr off => 0xE#4 ++ regBits dr ++ off
  | .trap vect => 0xF0#8 ++ vect
  | .ret => 0xC1C0#16
  | .getc => 0xF020#16
  | .out => 0xF021#16
  | .puts => 0xF022#16
  | .inp => 0xF023#16
  | .putsp => 0xF024#16
  | .halt => 0xF025#16

/-- What the decoder reads from an instruction whose bits are `w`, numbered as spec/opcode_table.json numbers them.
Every instruction is one 16-bit word (R60), so bits above 15 do not exist. -/
def decodeTableWord (_nbits w : Nat) : Option Instr := some (decode (BitVec.ofNat 16 w))

end Sys2Proof
end

