-- ==== Sys2Proof/Config.lean ====
section
/-! DEFINITION. What the spec leaves to the implementation (spec/00_scope.md R9): constants without a body, so that
nothing can be proved about their values, and the one value a plain definition names. -/

namespace Sys2Proof.Config

/-- `IN_PROMPT`, the bytes TRAP IN writes before it reads: OPEN (92_eei_decisions.md D12).
Free value, assumption log 8. -/
opaque inPrompt : List Byte

/-- `EXIT_FAULT` less one: OPEN, any non-zero status (D18). Free value, assumption log 10. -/
opaque exitFaultLess1 : Nat

/-- `EXIT_LOADERROR` less one: OPEN, any non-zero status (D18). Free value, assumption log 10. -/
opaque exitLoadErrorLess1 : Nat

/-- The pc of `State.reset`. `ORIGIN` is a host input with no default (D22); this is the origin of the spec's
examples. DESIGN CHOICE, unsafe, assumption log 2. A run at another origin starts from `Machine.boot`. -/
def origin : Word := 0x3000

end Sys2Proof.Config
end

