-- ==== Sys2Proof/Machine/State.lean ====
section
/-! DEFINITION. The machine's state, plain data (10_state.md R36), the reasons a step can stop, and the state after
reset. -/

namespace Sys2Proof.Machine

/-- The condition code: exactly one of three flags (10_state.md R27); it has no bit encoding (R29). -/
inductive CC where
  | N
  | Z
  | P
deriving DecidableEq, Repr

/-- What an `InvalidOpcode` fault names (60_exceptions.md R201). -/
inductive InvalidOpcode where
  | reserved
  | rti
deriving DecidableEq, Repr

/-- What a `TrapError` fault names (R201). -/
inductive TrapError where
  | unknownVector (v : BitVec 8)
  | io
deriving DecidableEq, Repr

/-- The closed list of fault reasons (R201). -/
inductive FaultReason where
  | invalidOpcode (cause : InvalidOpcode)
  | trapError (cause : TrapError)
deriving DecidableEq, Repr

/-- The run state of the execution engine (10_state.md R31). -/
inductive RunState where
  | running
  | halted
  | faulted (reason : FaultReason)
deriving DecidableEq, Repr

/-- A service whose TRAP can take more than one step of the model: GETC and IN while they wait for the console (R32), and
PUTS and PUTSP over a memory without a 0x0000 word (43_trap.md R175, R177; assumption logs 6, 12). -/
inductive Service where
  | getc
  | inp
  | puts
  | putsp
deriving DecidableEq, Repr

/-- One answer of the console to `read_char`: a byte, or a failure, which end of input is too
(R34, 92_eei_decisions.md D14). -/
inductive ReadReply where
  | byte (b : Byte)
  | failed
deriving DecidableEq, Repr

/-- One listed memory word at its address. The spec's addressable unit is the 16-bit word (20_memory.md R41), so a cell
is a word and not a byte. DEDUCED, safe, assumption log 1. -/
abbrev Cell := Nat × Word

/-- Memory as the list of its words that differ from what an unlisted address reads as; `Memory.wf` in
Sys2Proof/Machine/Ops.lean is its canonical form. -/
abbrev Memory := List Cell

/-- The machine's state (R36). -/
structure State where
  /-- R0 to R7 (R20). -/
  regs : Vector Word 8
  /-- The program counter (R25). -/
  pc : Word
  /-- The condition code (R27). -/
  cc : CC
  /-- The 65536 words of memory (20_memory.md R40). -/
  mem : Memory
  /-- The run state (R31). -/
  run : RunState
  /-- The service whose TRAP has not completed, if any: GETC or IN blocked on the console (R32), or PUTS or PUTSP with no
  0x0000 word found yet (assumption logs 6, 12). -/
  wait : Option Service
  /-- The console's replies to reads, oldest first, that the core has not taken. With none left the console has not
  answered yet (R32, R36; assumption log 5). -/
  consoleIn : List ReadReply
  /-- The bytes written to the console, oldest first (R36). -/
  consoleOut : List Byte
  /-- The console's answers to writes to come: `none` accepts every one, `some k` accepts k and fails the next. A
  failure ends the run, so no later answer matters. The model's own free field (D14, assumption log 7). -/
  writesUntilFail : Option Nat
deriving DecidableEq, Repr

/-- Why a step gives no next state. -/
inductive Fault where
  /-- Raised by `step` alone, in a state whose run state is `Halted`: no further instruction is fetched (R31). Safe. -/
  | halted
  /-- Raised by `step` alone, in a state whose run state is `Faulted(reason)`: no further instruction is fetched (R31,
  R200). The fault itself was the step before, a next state. Safe (assumption log 11). -/
  | faulted (reason : FaultReason)
deriving DecidableEq, Repr

/-- Why an instruction has no meaning in the model. -/
inductive Refusal where
  /-- Raised by `exec` for an instruction without a meaning, by its mnemonic. Safe. No arm raises it. -/
  | notModelled (mnemonic : String)
deriving DecidableEq, Repr

/-- What a meaning answers. -/
abbrev Result := Host.Outcome State Fault Refusal

/-- The machine right after reset, nothing loaded (10_state.md R37, 70_reset_and_hazards.md R220). Memory, run state and
output are the spec's; registers and cc its decisions D3 and D4 (assumption logs 3, 4); the pc is log 2; the console's
fields are logs 5 and 7. -/
def State.reset : State where
  regs := Vector.replicate 8 0
  pc := Config.origin
  cc := .Z
  mem := []
  run := .running
  wait := none
  consoleIn := []
  consoleOut := []
  writesUntilFail := none

end Sys2Proof.Machine
end

