-- ==== Sys2Proof/Machine/Ops.lean ====
section
/-! DEFINITION. The named operations over memory, registers, the run state and the console ports. -/

namespace Sys2Proof.Machine

/-! ### Memory -/

/-- What an address that is not listed reads as: memory is zero-initialized (20_memory.md R42). -/
def Memory.unlisted : Word := 0

/-- The canonical form: addresses strictly rising and below 65536 (R40), and no listed word equal to what an unlisted
address reads as. -/
abbrev Memory.wf (m : Memory) : Prop :=
  m.Pairwise (fun c d => c.1 < d.1) ∧ ∀ c ∈ m, c.1 < 65536 ∧ c.2 ≠ Memory.unlisted

/-- The word at an address. -/
def Memory.read : Memory → Nat → Word
  | [], _ => Memory.unlisted
  | (k, w) :: rest, a => if k = a then w else Memory.read rest a

/-- Put a word before the listed cells, unless it is what an unlisted address reads as. -/
def Memory.cons (a : Nat) (v : Word) (rest : Memory) : Memory :=
  if v = Memory.unlisted then rest else (a, v) :: rest

/-- Memory with the word at one address replaced; keeps the canonical form. -/
def Memory.write : Memory → Nat → Word → Memory
  | [], a, v => Memory.cons a v []
  | (k, w) :: rest, a, v =>
    if a < k then Memory.cons a v ((k, w) :: rest)
    else if a = k then Memory.cons a v rest
    else (k, w) :: Memory.write rest a v

/-- `MemRead(a, 1)`: one whole word, no side effect, cannot fail (00_scope.md R13, 20_memory.md R44). -/
def State.memRead (s : State) (a : Word) : Word := s.mem.read a.toNat

/-- `MemWrite(a, 1, v)`: one whole word, cannot fail (R13). -/
def State.memWrite (s : State) (a v : Word) : State := { s with mem := s.mem.write a.toNat v }

/-! ### Registers -/

/-- `x[r]` (R14). No register is hard-wired (10_state.md R20). -/
def State.getReg (s : State) (r : Reg) : Word := s.regs[r.val]

/-- `x[r] <- v` (R14). -/
def State.setReg (s : State) (r : Reg) (v : Word) : State := { s with regs := s.regs.set r.val v }

/-- `pc <- t` (R14). -/
def State.setPc (s : State) (t : Word) : State := { s with pc := t }

/-- Replace the condition code. -/
def State.setCc (s : State) (c : CC) : State := { s with cc := c }

/-! ### Fetch -/

/-- The word at the pc; fetch cannot fail (20_memory.md R40, 70_reset_and_hazards.md R223). -/
def State.fetchWord (s : State) : Word := s.memRead s.pc

/-- The fetch increment, modulo 2^16, before execute (R223, R224, 10_state.md R26). -/
def State.advance (s : State) : State := s.setPc (s.pc + 1)

/-! ### Ending a run -/

/-- `raise Fault(reason)`: the run state becomes `Faulted(reason)` and nothing else changes: no handler, no vector, no
saved state, no mode (60_exceptions.md R200). The pc keeps the fetch increment (R225). -/
def State.raiseFault (s : State) (reason : FaultReason) : State := { s with run := .faulted reason }

/-- `halt`: the run state becomes `Halted` (R14, 43_trap.md R178). -/
def State.halt (s : State) : State := { s with run := .halted }

/-- Why no instruction may be fetched in this state, if none may: `Halted` and `Faulted(reason)` are terminal
(10_state.md R31). -/
def State.stopped (s : State) : Option Fault :=
  match s.run with
  | .running => none
  | .halted => some .halted
  | .faulted reason => some (.faulted reason)

/-! ### Console port -/

/-- How a sequence of console writes ends; the state holds the bytes accepted so far (43_trap.md R180). -/
inductive Written where
  | ok (s : State)
  | failed (s : State)
deriving DecidableEq, Repr

/-- `ConsoleWrite(b)`: appends the byte to the output, or fails with nothing written (10_state.md R34). -/
def State.consoleWrite (s : State) (b : Byte) : Written :=
  match s.writesUntilFail with
  | none => .ok { s with consoleOut := s.consoleOut ++ [b] }
  | some 0 => .failed s
  | some (k + 1) => .ok { s with consoleOut := s.consoleOut ++ [b], writesUntilFail := some k }

/-- `write_string`: the bytes in order, a failure at any byte ending the sequence (R34, D14). -/
def State.consoleWriteAll (s : State) : List Byte → Written
  | [] => .ok s
  | b :: bs =>
    match s.consoleWrite b with
    | .ok t => t.consoleWriteAll bs
    | .failed t => .failed t

/-- A console failure faults with `TrapError(IO)` at once, with no retry (R180). -/
def State.ioFault (s : State) : State := s.raiseFault (.trapError .io)

/-- Go on with `k` when the writes were accepted; a failed one faults. -/
def Written.andThen (r : Written) (k : State → State) : State :=
  match r with
  | .ok s => k s
  | .failed s => s.ioFault

/-- `ConsoleRead()` inside a service: with no reply yet the service waits and nothing else changes (R32); a byte is given
to `k`; a failure faults (R173, R176). A reply ends the wait. -/
def State.consoleRead (s : State) (svc : Service) (k : State → Byte → State) : State :=
  match s.consoleIn with
  | [] => { s with wait := some svc }
  | .byte b :: rest => k { s with consoleIn := rest, wait := none } b
  | .failed :: rest => { s with consoleIn := rest, wait := none : State }.ioFault

end Sys2Proof.Machine
end

