-- ==== Sys2Proof/Machine/Flags.lean ====
section
/-! DEFINITION. The condition code: how a result sets it and how BR's mask tests it. -/

namespace Sys2Proof.Machine

/-- The flag `setcc(v)` makes active (10_state.md R27). -/
def ccOf (v : Word) : CC :=
  if v = 0 then .Z else if v.msb then .N else .P

/-- `x[DR] <- v; setcc(v)`: how every instruction that sets cc ends (R28). -/
def State.writeResult (s : State) (dr : Reg) (v : Word) : State := (s.setReg dr v).setCc (ccOf v)

/-- BR's condition (30_encoding.md R66): the mask bit of the active flag. -/
def ccMeets (n z p : Bool) (c : CC) : Bool :=
  match c with
  | .N => n
  | .Z => z
  | .P => p

end Sys2Proof.Machine
end

