-- ==== Sys2Proof/Machine/Operands.lean ====
section
/-! DEFINITION. Immediate operands, the bytes of a word, and the effective addresses of the addressing modes. -/

namespace Sys2Proof.Machine

/-- `sext_n`: the one sign-extension helper, for the widths 5, 6, 9 and 11 (00_scope.md R12, 30_encoding.md R63). -/
def sext {n : Nat} (f : BitVec n) : Word := f.signExtend 16

/-- `zext_n` (R12). -/
def zext {n : Nat} (f : BitVec n) : Word := f.setWidth 16

/-- Bits [7:0] of a word. -/
def lowByte (w : Word) : Byte := w.extractLsb' 0 8

/-- Bits [15:8] of a word. -/
def highByte (w : Word) : Byte := w.extractLsb' 8 8

/-- The PC-relative address `pc + sext(off)`; `pc` is the incremented PC (41_data_movement.md R127,
70_reset_and_hazards.md R224). Also the target of BR and JSR. -/
def State.pcRel {n : Nat} (s : State) (off : BitVec n) : Word := s.pc + sext off

/-- The base + offset address `x[BaseR] + sext_6(offset6)` (R127). -/
def State.baseRel (s : State) (base : Reg) (off : BitVec 6) : Word := s.getReg base + sext off

/-- The indirect address: the word at the PC-relative address (R127). -/
def State.indirect (s : State) (off : BitVec 9) : Word := s.memRead (s.pcRel off)

end Sys2Proof.Machine
end

