-- ==== Sys2Proof/Machine/Control.lean ====
section
/-! DEFINITION. Control transfer and the two opcodes that fault (spec/42_control.md). The pc of the state is the
incremented one (70_reset_and_hazards.md R224). -/

namespace Sys2Proof.Machine

/-- `link <- pc; pc <- target; x[7] <- link`, the target read before R7 is written (R154, R155, D15). -/
def State.call (s : State) (target : Word) : State := (s.setPc target).setReg 7 s.pc

/-- R150: not taken, the pc keeps the incremented value. -/
def execBr (n z p : Bool) (off : BitVec 9) (s : State) : Result :=
  .next (if ccMeets n z p s.cc then s.setPc (s.pcRel off) else s)

/-- R152. -/
def execJmp (base : Reg) (s : State) : Result := .next (s.setPc (s.getReg base))

/-- R152 with BaseR = R7. -/
def execRet (s : State) : Result := .next (s.setPc (s.getReg 7))

/-- R154. -/
def execJsr (off : BitVec 11) (s : State) : Result := .next (s.call (s.pcRel off))

/-- R155. -/
def execJsrr (base : Reg) (s : State) : Result := .next (s.call (s.getReg base))

/-- R157: always `InvalidOpcode(RTI)`; the no-op reading is not admitted (90_conflicts.md C6). -/
def execRti (s : State) : Result := .next (s.raiseFault (.invalidOpcode .rti))

/-- R158: always `InvalidOpcode(Reserved)`. -/
def execReserved (s : State) : Result := .next (s.raiseFault (.invalidOpcode .reserved))

end Sys2Proof.Machine
end

