-- ==== Sys2Proof/Machine/DataMovement.lean ====
section
/-! DEFINITION. Loads, LEA and stores (spec/41_data_movement.md). -/

namespace Sys2Proof.Machine

/-- R120. -/
def execLd (dr : Reg) (off : BitVec 9) (s : State) : Result := .next (s.writeResult dr (s.memRead (s.pcRel off)))

/-- R121: cc from the operand, not from the pointer. -/
def execLdi (dr : Reg) (off : BitVec 9) (s : State) : Result := .next (s.writeResult dr (s.memRead (s.indirect off)))

/-- R122. -/
def execLdr (dr base : Reg) (off : BitVec 6) (s : State) : Result :=
  .next (s.writeResult dr (s.memRead (s.baseRel base off)))

/-- R123: no memory access, and cc is set. -/
def execLea (dr : Reg) (off : BitVec 9) (s : State) : Result := .next (s.writeResult dr (s.pcRel off))

/-- R124. -/
def execSt (sr : Reg) (off : BitVec 9) (s : State) : Result := .next (s.memWrite (s.pcRel off) (s.getReg sr))

/-- R125: the pointer is read before the write. -/
def execSti (sr : Reg) (off : BitVec 9) (s : State) : Result := .next (s.memWrite (s.indirect off) (s.getReg sr))

/-- R126. -/
def execStr (sr base : Reg) (off : BitVec 6) (s : State) : Result :=
  .next (s.memWrite (s.baseRel base off) (s.getReg sr))

end Sys2Proof.Machine
end

