-- ==== Sys2Proof/Machine/Operate.lean ====
section
/-! DEFINITION. The operate instructions (spec/40_operate.md). Sums wrap modulo 2^16, and no carry or overflow is
recorded (R105). -/

namespace Sys2Proof.Machine

/-- R100. -/
def execAddReg (dr sr1 sr2 : Reg) (s : State) : Result := .next (s.writeResult dr (s.getReg sr1 + s.getReg sr2))

/-- R101. -/
def execAddImm (dr sr1 : Reg) (imm : BitVec 5) (s : State) : Result :=
  .next (s.writeResult dr (s.getReg sr1 + sext imm))

/-- R102. -/
def execAndReg (dr sr1 sr2 : Reg) (s : State) : Result := .next (s.writeResult dr (s.getReg sr1 &&& s.getReg sr2))

/-- R103: the immediate is sign-extended before the AND. -/
def execAndImm (dr sr1 : Reg) (imm : BitVec 5) (s : State) : Result :=
  .next (s.writeResult dr (s.getReg sr1 &&& sext imm))

/-- R104. -/
def execNot (dr sr : Reg) (s : State) : Result := .next (s.writeResult dr (~~~(s.getReg sr)))

end Sys2Proof.Machine
end

