-- ==== Sys2Proof/Machine/Trap.lean ====
section
/-! DEFINITION. TRAP and the Trap Dispatcher's six services (spec/43_trap.md). No service writes cc, R7, the pc or
memory, and only GETC and IN write R0 (R172). -/

namespace Sys2Proof.Machine

/-- The bytes IN writes before it reads: the open parameter `IN_PROMPT` (D12, assumption log 8). -/
def inPrompt : List Byte := Config.inPrompt

/-- The bytes HALT writes: `HALT_MESSAGE`, empty by the spec's decision D13. DESIGN CHOICE of the spec, unsafe,
assumption log 9. -/
def haltMessage : List Byte := []

/-- GETC from its console read on (R173): the byte goes to R0[7:0] and R0[15:8] is cleared (D9). -/
def State.getcRead (s : State) : State := s.consoleRead .getc (fun t b => t.setReg 0 (zext b))

/-- IN from its console read on (R176): R0 is written only after the echo is accepted (D14). -/
def State.inRead (s : State) : State :=
  s.consoleRead .inp (fun t b => (t.consoleWrite b).andThen (fun u => u.setReg 0 (zext b)))

/-- The byte PUTS writes for a word: bits [7:0], the rest ignored (R175). -/
def putsBytes (w : Word) : List Byte := [lowByte w]

/-- The bytes PUTSP writes for a word: bits [7:0], then bits [15:8] unless they are zero (R177, D11). -/
def putspBytes (w : Word) : List Byte := if highByte w = 0 then [lowByte w] else [lowByte w, highByte w]

/-- How the loop of PUTS or PUTSP stands after so many words. -/
inductive Scan where
  | ended (s : State)
  | failed (s : State)
  | goesOn (s : State)
deriving DecidableEq, Repr

/-- The loop of R175 and R177 over `n` words from `a`: it ends at the first whole word equal to 0x0000, the address
wrapping modulo 2^16. -/
def stringLoop (emit : Word → List Byte) : Nat → Word → State → Scan
  | 0, _, s => .goesOn s
  | n + 1, a, s =>
    if s.memRead a = 0 then .ended s
    else
      match s.consoleWriteAll (emit (s.memRead a)) with
      | .ok t => stringLoop emit n (a + 1) t
      | .failed t => .failed t

/-- One turn of PUTS or PUTSP round the 65536 words of memory, from the one R0 points to. A loop that has met no 0x0000
word and no failure is back at R0 and goes on from there in the next step, which is how a service that never completes
writes bytes forever (R175, R177, 93_implementation_defined.md U12; assumption log 12). -/
def State.writeString (s : State) (svc : Service) (emit : Word → List Byte) : State :=
  match stringLoop emit 65536 (s.getReg 0) s with
  | .ended t => { t with wait := none }
  | .failed t => { t with wait := none : State }.ioFault
  | .goesOn t => { t with wait := some svc }

/-- PUTS (R175). -/
def State.putsTurn (s : State) : State := s.writeString .puts putsBytes

/-- PUTSP (R177). -/
def State.putspTurn (s : State) : State := s.writeString .putsp putspBytes

/-- A service that has not completed goes on: GETC and IN try their console read again, and nothing changes while no reply
has come (10_state.md R32); PUTS and PUTSP take their next turn. -/
def State.resume (s : State) (svc : Service) : State :=
  match svc with
  | .getc => s.getcRead
  | .inp => s.inRead
  | .puts => s.putsTurn
  | .putsp => s.putspTurn

/-- R173. -/
def execGetc (s : State) : Result := .next s.getcRead

/-- R174: R0[15:8] is ignored. -/
def execOut (s : State) : Result := .next ((s.consoleWrite (lowByte (s.getReg 0))).andThen id)

/-- R175. -/
def execPuts (s : State) : Result := .next s.putsTurn

/-- IN with a given prompt (R176): prompt, read, echo, store. -/
def State.inWith (s : State) (prompt : List Byte) : State := (s.consoleWriteAll prompt).andThen State.inRead

/-- R176, with the prompt `IN_PROMPT`. -/
def execIn (s : State) : Result := .next (s.inWith inPrompt)

/-- R177. -/
def execPutsp (s : State) : Result := .next s.putspTurn

/-- R178. -/
def execHalt (s : State) : Result := .next ((s.consoleWriteAll haltMessage).andThen State.halt)

/-- R170, R171: the service of the vector; any other vector faults with `TrapError(UnknownVector(v))` (R179). The codes
are the spec's decision D6. -/
def execTrap (vect : BitVec 8) (s : State) : Result :=
  match vect.toNat with
  | 0x20 => execGetc s
  | 0x21 => execOut s
  | 0x22 => execPuts s
  | 0x23 => execIn s
  | 0x24 => execPutsp s
  | 0x25 => execHalt s
  | _ => .next (s.raiseFault (.trapError (.unknownVector vect)))

end Sys2Proof.Machine
end

