-- ==== Sys2Proof/Machine/Step.lean ====
section
/-! DEFINITION. One step of the machine (70_reset_and_hazards.md R223). -/

namespace Sys2Proof.Machine

/-- While `Running`: fetch, increment, decode, execute (R223). A step that finds a service not completed goes on with
it (10_state.md R32, assumption logs 6, 12). In a terminal state no instruction is fetched (R31). -/
def step (s : State) : Host.Outcome State Fault Refusal :=
  match s.stopped with
  | some f => .fault f
  | none =>
    match s.wait with
    | some svc => .next (s.resume svc)
    | none => exec (decode s.fetchWord) s.advance

/-- The state with one instruction word where `step` fetches next, and nothing that keeps `step` from fetching: the
Loader's work for an image of one word at the pc (20_memory.md R50; assumption log 2). -/
def State.withFetchWord (s : State) (_nbits w : Nat) : State :=
  { s.memWrite s.pc (BitVec.ofNat 16 w) with run := .running, wait := none }

end Sys2Proof.Machine
end

