-- ==== Sys2Proof/Machine/HostPort.lean ====
section
/-! DEFINITION. The host port (10_state.md R35): the Loader (20_memory.md R50 to R53), the start of a run
(70_reset_and_hazards.md R220), the console's replies, and the exit status (60_exceptions.md R205). -/

namespace Sys2Proof.Machine

/-- `LoadError` (R204) with its cause: a malformed wire image (R52), or one of R51's two cases. -/
inductive LoadError where
  | malformedImage
  | emptyImage
  | pastEndOfMemory
deriving DecidableEq, Repr

/-- Write the words at `a`, `a + 1`, ... in index order (R50). -/
def Memory.writeWords (m : Memory) (a : Nat) : List Word → Memory
  | [] => m
  | w :: ws => Memory.writeWords (m.write a w) (a + 1) ws

/-- `load(origin, words)` (R50, R51): the last address is computed without wraparound. -/
def load (m : Memory) (origin : Word) (words : List Word) : Except LoadError Memory :=
  if words = [] then .error .emptyImage
  else if 0xFFFF < origin.toNat + words.length - 1 then .error .pastEndOfMemory
  else .ok (m.writeWords origin.toNat words)

/-- The words of big-endian byte pairs; an odd byte is malformed (R52, D20). -/
def wordsOfBytes : List Byte → Except LoadError (List Word)
  | [] => .ok []
  | [_] => .error .malformedImage
  | b0 :: b1 :: rest =>
    match wordsOfBytes rest with
    | .ok ws => .ok ((b0 ++ b1) :: ws)
    | .error e => .error e

/-- The wire image: the origin, then the words (R52). Fewer than two bytes, or an odd count, is malformed. -/
def parseImage (bytes : List Byte) : Except LoadError (Word × List Word) :=
  match wordsOfBytes bytes with
  | .ok (origin :: words) => .ok (origin, words)
  | .ok [] => .error .malformedImage
  | .error e => .error e

/-- The named arguments of a run that are not its image (00_scope.md R9): `GPR_RESET`, `CC_RESET` and the console's
answers. -/
structure Launch where
  gprReset : Vector Word 8
  ccReset : CC
  consoleIn : List ReadReply
  writesUntilFail : Option Nat
deriving DecidableEq, Repr

/-- R220: memory zero, the image loaded, pc = ORIGIN, registers and cc at their parameters, Running. After a `LoadError`
nothing runs (R53). -/
def boot (l : Launch) (origin : Word) (words : List Word) : Except LoadError State :=
  match load [] origin words with
  | .error e => .error e
  | .ok mem => .ok
    { regs := l.gprReset, pc := origin, cc := l.ccReset, mem := mem, run := .running, wait := none,
      consoleIn := l.consoleIn, consoleOut := [], writesUntilFail := l.writesUntilFail }

/-- `boot` from the bytes on the wire (R52). -/
def bootImage (l : Launch) (bytes : List Byte) : Except LoadError State :=
  match parseImage bytes with
  | .error e => .error e
  | .ok (origin, words) => boot l origin words

/-- The console answers a read, now or ahead of time (10_state.md R34). -/
def State.consoleReply (s : State) (r : ReadReply) : State := { s with consoleIn := s.consoleIn ++ [r] }

/-- The exit status of a run state: 0 on `Halted`, `EXIT_FAULT` on `Faulted`, none while the run has not ended (R205). -/
def RunState.exitStatus : RunState → Option Nat
  | .running => none
  | .halted => some 0
  | .faulted _ => some (Config.exitFaultLess1 + 1)

/-- The exit status after a `LoadError` (R205). -/
def LoadError.exitStatus (_ : LoadError) : Nat := Config.exitLoadErrorLess1 + 1

/-- The spec's code of a fault reason, an enumeration label that no program sees (R201, D18). -/
def FaultReason.code : FaultReason → Nat
  | .invalidOpcode .reserved => 1
  | .invalidOpcode .rti => 2
  | .trapError (.unknownVector _) => 3
  | .trapError .io => 4

end Sys2Proof.Machine
end

