-- ==== Sys2Proof/Safety.lean ====
section
/-! DEFINITION. The terms claims are stated in: what the spec says each instruction reads, writes and raises, the rows of
the opcode table, the invariant, and what a run is. Written from the spec's tables, not from the meanings. -/

namespace Sys2Proof.Machine

/-! ### What an instruction touches -/

/-- The general register an instruction writes when it completes (10_state.md R21). -/
def destReg : Instr → Option Reg
  | .addReg dr _ _ | .addImm dr _ _ | .andReg dr _ _ | .andImm dr _ _ | .not dr _ => some dr
  | .ld dr _ | .ldi dr _ | .ldr dr _ _ | .lea dr _ => some dr
  | .jsr _ | .jsrr _ => some 7
  | .getc | .inp => some 0
  | .trap v => if v.toNat = 0x20 ∨ v.toNat = 0x23 then some 0 else none
  | .br _ _ _ _ | .st _ _ | .str _ _ _ | .rti | .sti _ _ | .jmp _ | .reserved | .ret | .out | .puts | .putsp
  | .halt => none

/-- The general registers an instruction reads (R22). -/
def sourceRegs : Instr → List Reg
  | .addReg _ sr1 sr2 | .andReg _ sr1 sr2 => [sr1, sr2]
  | .addImm _ sr1 _ | .andImm _ sr1 _ => [sr1]
  | .not _ sr | .st sr _ | .sti sr _ => [sr]
  | .ldr _ base _ | .jmp base | .jsrr base => [base]
  | .str sr base _ => [sr, base]
  | .ret => [7]
  | .out | .puts | .putsp => [0]
  | .trap v => if v.toNat = 0x21 ∨ v.toNat = 0x22 ∨ v.toNat = 0x24 then [0] else []
  | .br _ _ _ _ | .ld _ _ | .jsr _ | .rti | .ldi _ _ | .reserved | .lea _ _ | .getc | .inp | .halt => []

/-- The instructions that call `setcc` (R28). -/
def setsCc : Instr → Bool
  | .addReg _ _ _ | .addImm _ _ _ | .andReg _ _ _ | .andImm _ _ _ | .not _ _ => true
  | .ld _ _ | .ldi _ _ | .ldr _ _ _ | .lea _ _ => true
  | .br _ _ _ _ | .st _ _ | .jsr _ | .jsrr _ | .str _ _ _ | .rti | .sti _ _ | .jmp _ | .reserved | .trap _ | .ret
  | .getc | .out | .puts | .inp | .putsp | .halt => false

/-- The address an instruction stores to, in the state it executes in (41_data_movement.md R124 to R127). -/
def storeAddr (i : Instr) (s : State) : Option Word :=
  match i with
  | .st _ off => some (s.pcRel off)
  | .sti _ off => some (s.indirect off)
  | .str _ base off => some (s.baseRel base off)
  | .br _ _ _ _ | .addReg _ _ _ | .addImm _ _ _ | .ld _ _ | .jsr _ | .jsrr _ | .andReg _ _ _ | .andImm _ _ _
  | .ldr _ _ _ | .rti | .not _ _ | .ldi _ _ | .jmp _ | .reserved | .lea _ _ | .trap _ | .ret | .getc | .out | .puts
  | .inp | .putsp | .halt => none

/-- The register whose word an instruction stores (41_data_movement.md R124 to R126). -/
def storedReg : Instr → Option Reg
  | .st sr _ | .sti sr _ | .str sr _ _ => some sr
  | .br _ _ _ _ | .addReg _ _ _ | .addImm _ _ _ | .ld _ _ | .jsr _ | .jsrr _ | .andReg _ _ _ | .andImm _ _ _
  | .ldr _ _ _ | .rti | .not _ _ | .ldi _ _ | .jmp _ | .reserved | .lea _ _ | .trap _ | .ret | .getc | .out | .puts
  | .inp | .putsp | .halt => none

/-- The instructions that may write the pc beyond the fetch increment (10_state.md R25). -/
def transfersControl : Instr → Bool
  | .br _ _ _ _ | .jsr _ | .jsrr _ | .jmp _ | .ret => true
  | .addReg _ _ _ | .addImm _ _ _ | .ld _ _ | .st _ _ | .andReg _ _ _ | .andImm _ _ _ | .ldr _ _ _ | .str _ _ _
  | .rti | .not _ _ | .ldi _ _ | .sti _ _ | .reserved | .lea _ _ | .trap _ | .getc | .out | .puts | .inp | .putsp
  | .halt => false

/-- TRAP under any of its names (43_trap.md R171, 30_encoding.md R74). -/
def isTrap : Instr → Bool
  | .trap _ | .getc | .out | .puts | .inp | .putsp | .halt => true
  | .br _ _ _ _ | .addReg _ _ _ | .addImm _ _ _ | .ld _ _ | .st _ _ | .jsr _ | .jsrr _ | .andReg _ _ _
  | .andImm _ _ _ | .ldr _ _ _ | .str _ _ _ | .rti | .not _ _ | .ldi _ _ | .sti _ _ | .jmp _ | .reserved | .lea _ _
  | .ret => false

/-- The instructions that take a byte from the console (R173, R176). -/
def readsConsole : Instr → Bool
  | .getc | .inp => true
  | .trap v => v.toNat = 0x20 || v.toNat = 0x23
  | .br _ _ _ _ | .addReg _ _ _ | .addImm _ _ _ | .ld _ _ | .st _ _ | .jsr _ | .jsrr _ | .andReg _ _ _
  | .andImm _ _ _ | .ldr _ _ _ | .str _ _ _ | .rti | .not _ _ | .ldi _ _ | .sti _ _ | .jmp _ | .reserved | .lea _ _
  | .ret | .out | .puts | .putsp | .halt => false

/-- HALT under either of its names. -/
def isHalt : Instr → Bool
  | .halt => true
  | .trap v => v.toNat = 0x25
  | .br _ _ _ _ | .addReg _ _ _ | .addImm _ _ _ | .ld _ _ | .st _ _ | .jsr _ | .jsrr _ | .andReg _ _ _
  | .andImm _ _ _ | .ldr _ _ _ | .str _ _ _ | .rti | .not _ _ | .ldi _ _ | .sti _ _ | .jmp _ | .reserved | .lea _ _
  | .ret | .getc | .out | .puts | .inp | .putsp => false

/-- The fault reasons an instruction may raise (60_exceptions.md R201). -/
def mayRaise (i : Instr) (reason : FaultReason) : Bool :=
  match reason with
  | .invalidOpcode .reserved => i == .reserved
  | .invalidOpcode .rti => i == .rti
  | .trapError (.unknownVector v) => i == .trap v && (v.toNat < 0x20 || 0x25 < v.toNat)
  | .trapError .io =>
    match i with
    | .getc | .out | .puts | .inp | .putsp | .halt => true
    | .trap v => 0x20 ≤ v.toNat && v.toNat ≤ 0x25
    | .br _ _ _ _ | .addReg _ _ _ | .addImm _ _ _ | .ld _ _ | .st _ _ | .jsr _ | .jsrr _ | .andReg _ _ _
    | .andImm _ _ _ | .ldr _ _ _ | .str _ _ _ | .rti | .not _ _ | .ldi _ _ | .sti _ _ | .jmp _ | .reserved
    | .lea _ _ | .ret => false

/-! ### The opcode table -/

/-- The mask of an instruction's row in spec/opcode_table.json; for a name of JMP or TRAP, that name's row. -/
def tableMask : Instr → Word
  | .addReg _ _ _ | .addImm _ _ _ | .andReg _ _ _ | .andImm _ _ _ => 0xF020
  | .jsr _ | .jsrr _ => 0xF800
  | .ret => 0xF1C0
  | .getc | .out | .puts | .inp | .putsp | .halt => 0xF0FF
  | .br _ _ _ _ | .ld _ _ | .st _ _ | .ldr _ _ _ | .str _ _ _ | .rti | .not _ _ | .ldi _ _ | .sti _ _ | .jmp _
  | .reserved | .lea _ _ | .trap _ => 0xF000

/-- The value the masked bits have in that row. -/
def tableMatch : Instr → Word
  | .br _ _ _ _ => 0x0000
  | .addReg _ _ _ => 0x1000
  | .addImm _ _ _ => 0x1020
  | .ld _ _ => 0x2000
  | .st _ _ => 0x3000
  | .jsr _ => 0x4800
  | .jsrr _ => 0x4000
  | .andReg _ _ _ => 0x5000
  | .andImm _ _ _ => 0x5020
  | .ldr _ _ _ => 0x6000
  | .str _ _ _ => 0x7000
  | .rti => 0x8000
  | .not _ _ => 0x9000
  | .ldi _ _ => 0xA000
  | .sti _ _ => 0xB000
  | .jmp _ => 0xC000
  | .reserved => 0xD000
  | .lea _ _ => 0xE000
  | .trap _ => 0xF000
  | .ret => 0xC1C0
  | .getc => 0xF020
  | .out => 0xF021
  | .puts => 0xF022
  | .inp => 0xF023
  | .putsp => 0xF024
  | .halt => 0xF025

/-- The bits of an instruction's format that are not marked `x` (30_encoding.md R62). -/
def usedBits : Instr → Word
  | .addReg _ _ _ | .andReg _ _ _ => 0xFFE7
  | .jsrr _ => 0xF9C0
  | .rti | .reserved => 0xF000
  | .not _ _ => 0xFFC0
  | .jmp _ | .ret => 0xF1C0
  | .trap _ | .getc | .out | .puts | .inp | .putsp | .halt => 0xF0FF
  | .br _ _ _ _ | .addImm _ _ _ | .ld _ _ | .st _ _ | .jsr _ | .andImm _ _ _ | .ldr _ _ _ | .str _ _ _ | .ldi _ _
  | .sti _ _ | .lea _ _ => 0xFFFF

/-! ### States -/

/-- The next step fetches an instruction: the run has not ended and no service is waiting. -/
abbrev State.fetches (s : State) : Prop := s.run = .running ∧ s.wait = none

/-- The console accepts the next `n` writes. -/
abbrev State.acceptsWrites (s : State) (n : Nat) : Prop := ∀ k, s.writesUntilFail = some k → n ≤ k

/-- The state after the console accepted `bs`. -/
def State.wrote (s : State) (bs : List Byte) : State :=
  { s with consoleOut := s.consoleOut ++ bs, writesUntilFail := s.writesUntilFail.map (· - bs.length) }

/-- Apply a function to the next state, if there is one. -/
def mapNext (f : State → State) : Result → Result
  | .next s => .next (f s)
  | .fault r => .fault r
  | .refused r => .refused r

/-- The instruction whose step ended or is suspended: the one at the address before the pc (60_exceptions.md R201,
70_reset_and_hazards.md R225). -/
def State.lastInstr (s : State) : Instr := decode (s.memRead (s.pc - 1))

/-- The instruction an uncompleted service is part of (10_state.md R32). -/
def Service.instr : Service → Instr
  | .getc => .getc
  | .inp => .inp
  | .puts => .puts
  | .putsp => .putsp

/-- The invariant: memory is canonical; an uncompleted service is that of the TRAP at pc - 1, and running; an ended run names the
instruction at pc - 1 that ended it. -/
structure State.Inv (s : State) : Prop where
  memory : s.mem.wf
  waiting : ∀ svc, s.wait = some svc → s.run = .running ∧ s.lastInstr = svc.instr
  halted : s.run = .halted → s.lastInstr = .halt
  faulted : ∀ reason, s.run = .faulted reason → mayRaise s.lastInstr reason = true

/-- The states a run passes through: the machine steps, and the console may answer at any point between steps. -/
inductive Reaches : State → State → Prop where
  | refl (s : State) : Reaches s s
  | step {s t u : State} : Reaches s t → Machine.step t = .next u → Reaches s u
  | reply {s t : State} (r : ReadReply) : Reaches s t → Reaches s (t.consoleReply r)

/-- A safe run never enters `Faulted` (60_exceptions.md R200). -/
def SafeRun (s : State) : Prop := ∀ t, Reaches s t → ∀ reason, t.run ≠ .faulted reason

end Sys2Proof.Machine
end

