-- ==== Sys2Proof/Certificates/Slice0/Obligations.lean ====
section
/-! DEFINITION. The statements for the provers. Each docstring names the rules of spec/ it formalises; one that rests on a
decision of the spec's own (92_eei_decisions.md) names it. -/

open Sys2Proof Sys2Proof.Machine

/-! ### Encoding -/

/-- Words of 95_test_vectors.md decode to the instruction written beside them there: V1, V5, V21, V49, V58, V64, V68, V83
and V84. Field positions are the spec's decision D1, mask order D5, trap vectors D6, unused bits D2. -/
def Obligations.DecodeReadsTheVectorWords : Prop :=
  decode 0x1042 = .addReg 0 1 2 ∧ decode 0x14FF = .addImm 2 3 (-1) ∧ decode 0x2405 = .ld 2 5 ∧
  decode 0x0BFE = .br true false true (-2) ∧ decode 0xC1FF = .ret ∧ decode 0x41C0 = .jsrr 7 ∧
  decode 0xD000 = .reserved ∧ decode 0xF125 = .halt ∧ decode 0xF026 = .trap 0x26

/-- Decoding the word of a well-formed instruction gives it back, for every operand value (30_encoding.md R62, R69;
D1, D6). -/
def Obligations.DecodeOfEncodeGivesBack : Prop :=
  ∀ i : Instr, i.wellFormed = true → decode (encode i) = i

/-- Every word decodes to a well-formed instruction whose opcode-table row the word matches, and encoding that
instruction gives the word back on every bit its format uses (R68 to R70; D1, D2). -/
def Obligations.EveryWordDecodesToItsTableRow : Prop :=
  ∀ w : Word, (decode w).wellFormed = true ∧ w &&& tableMask (decode w) = tableMatch (decode w) ∧
    encode (decode w) &&& usedBits (decode w) = w &&& usedBits (decode w)

/-- Words that differ only in bits R62 marks `x` decode to the same instruction (R68, the spec's decision D2). -/
def Obligations.UnusedBitsHaveNoEffect : Prop :=
  ∀ v w : Word, v &&& usedBits (decode w) = w &&& usedBits (decode w) → decode v = decode w

/-! ### The step -/

/-- 70_reset_and_hazards.md R223: while Running, one step fetches the word at the pc, increments the pc, and runs the
instruction the word decodes to. (While a service has not completed, the step belongs to it: `StepAnswersWhileRunning`.) -/
def Obligations.StepRunsTheDecodedInstruction : Prop :=
  ∀ s : State, s.run = .running → s.wait = none →
    step s = exec (decode (s.memRead s.pc)) { s with pc := s.pc + 1 }

/-- Every instruction answers a next state in every state, a step has a next state exactly while Running, and a service that
has not completed goes on in the next step, with nothing fetched. The form is the model's choice: a fault and HALT are next
states (assumption log 11), and a service that takes more than one step is log 6 for GETC and IN and log 12 for PUTS and
PUTSP. The spec says that only HALT and faults stop a run, and that the one TRAP step suspends. -/
def Obligations.StepAnswersWhileRunning : Prop :=
  (∀ (i : Instr) (s : State), ∃ t, exec i s = .next t) ∧
  (∀ s : State, (∃ t, step s = .next t) ↔ s.run = .running) ∧
  ∀ (s : State) svc, s.run = .running → s.wait = some svc →
    step s = .next (s.resume svc) ∧ (s.resume svc).pc = s.pc ∧ (s.resume svc).cc = s.cc ∧
      ∀ a, (s.resume svc).memRead a = s.memRead a

/-- 10_state.md R31: the run state starts as Running, Halted and Faulted are terminal, and nothing an instruction does
depends on the run state. -/
def Obligations.RunStateIsTerminalAndUnreadable : Prop :=
  State.reset.run = .running ∧
  (∀ l origin words s, boot l origin words = .ok s → s.run = .running) ∧
  (∀ s : State, s.run = .halted → step s = .fault .halted) ∧
  (∀ (s : State) reason, s.run = .faulted reason → step s = .fault (.faulted reason)) ∧
  ∀ (i : Instr) (s : State) (r : RunState),
    mapNext (fun t => { t with run := .running }) (exec i { s with run := r }) =
      mapNext (fun t => { t with run := .running }) (exec i s)

/-- 60_exceptions.md section 1: a fault ends the run, and it is precise: registers, cc and memory as the previous instruction
left them, the pc at the faulting instruction's address plus 1, and the output kept. A console failure is the spec's decision
D14. The second clause is a fault of a service that had not completed, whose pc was incremented when its TRAP began: such a
state is the model's choice, assumption logs 6 and 12. That the fault is a next state is log 11. -/
def Obligations.FaultsEndTheRunAndArePrecise : Prop :=
  (∀ (s t : State) reason, s.fetches → step s = .next t → t.run = .faulted reason →
    t.pc = s.pc + 1 ∧ t.regs = s.regs ∧ t.cc = s.cc ∧ (∀ a, t.memRead a = s.memRead a) ∧
    (∃ bs, t.consoleOut = s.consoleOut ++ bs) ∧ (reason ≠ .trapError .io → t.consoleOut = s.consoleOut) ∧
    step t = .fault (.faulted reason)) ∧
  ∀ (s t : State) svc reason, s.run = .running → s.wait = some svc → step s = .next t → t.run = .faulted reason →
    t.pc = s.pc ∧ t.regs = s.regs ∧ t.cc = s.cc ∧ (∀ a, t.memRead a = s.memRead a) ∧
    (∃ bs, t.consoleOut = s.consoleOut ++ bs) ∧ step t = .fault (.faulted reason)

/-- 42_control.md R157, R158 and 60_exceptions.md R202: every word 0x8000 to 0x8FFF faults with InvalidOpcode(RTI) and
every word 0xD000 to 0xDFFF with InvalidOpcode(Reserved), and nothing but the pc's increment and the run state
changes. -/
def Obligations.RtiAndReservedWordsFault : Prop :=
  ∀ s : State, s.fetches →
    (s.memRead s.pc &&& 0xF000 = 0x8000 →
      step s = .next { s with pc := s.pc + 1, run := .faulted (.invalidOpcode .rti) }) ∧
    (s.memRead s.pc &&& 0xF000 = 0xD000 →
      step s = .next { s with pc := s.pc + 1, run := .faulted (.invalidOpcode .reserved) })

/-! ### Words, as the rules of 40_operate.md to 43_trap.md give them -/

/-- 40_operate.md R100 to R104, encoding and effect together: what one step does at each operate word. Field positions
are the spec's decision D1; sources are read before DR is written (D15). -/
def Obligations.StepAtOperateWords : Prop :=
  ∀ (s : State) (w : Word), s.fetches → s.memRead s.pc = w →
    let dr : Reg := (w.extractLsb' 9 3).toFin
    let a := s.getReg (w.extractLsb' 6 3).toFin
    let b := s.getReg (w.extractLsb' 0 3).toFin
    let imm := (w.extractLsb' 0 5).signExtend 16
    let done : Word → Result := fun r =>
      .next { s with pc := s.pc + 1, regs := s.regs.set dr.val r, cc := ccOf r }
    (w &&& 0xF020 = 0x1000 → step s = done (a + b)) ∧
    (w &&& 0xF020 = 0x1020 → step s = done (a + imm)) ∧
    (w &&& 0xF020 = 0x5000 → step s = done (a &&& b)) ∧
    (w &&& 0xF020 = 0x5020 → step s = done (a &&& imm)) ∧
    (w &&& 0xF000 = 0x9000 → step s = done (~~~a))

/-- 41_data_movement.md R120 to R123, encoding and effect together (D1): addresses count from the incremented pc, cc
comes from the value written. -/
def Obligations.StepAtLoadWords : Prop :=
  ∀ (s : State) (w : Word), s.fetches → s.memRead s.pc = w →
    let dr : Reg := (w.extractLsb' 9 3).toFin
    let rel := s.pc + 1 + (w.extractLsb' 0 9).signExtend 16
    let base := s.getReg (w.extractLsb' 6 3).toFin + (w.extractLsb' 0 6).signExtend 16
    let done : Word → Result := fun r =>
      .next { s with pc := s.pc + 1, regs := s.regs.set dr.val r, cc := ccOf r }
    (w &&& 0xF000 = 0x2000 → step s = done (s.memRead rel)) ∧
    (w &&& 0xF000 = 0xA000 → step s = done (s.memRead (s.memRead rel))) ∧
    (w &&& 0xF000 = 0x6000 → step s = done (s.memRead base)) ∧
    (w &&& 0xF000 = 0xE000 → step s = done rel)

/-- 41_data_movement.md R124 to R126, encoding and effect together (D1): the stored word at its address, every other
word, and everything else of the state. -/
def Obligations.StepAtStoreWords : Prop :=
  ∀ (s : State) (w : Word), s.mem.wf → s.fetches → s.memRead s.pc = w →
    let v := s.getReg (w.extractLsb' 9 3).toFin
    let rel := s.pc + 1 + (w.extractLsb' 0 9).signExtend 16
    let base := s.getReg (w.extractLsb' 6 3).toFin + (w.extractLsb' 0 6).signExtend 16
    let stored : Word → Prop := fun ea =>
      ∃ m : Memory, step s = .next { s with pc := s.pc + 1, mem := m } ∧ m.read ea.toNat = v ∧
        ∀ a : Word, a ≠ ea → m.read a.toNat = s.memRead a
    (w &&& 0xF000 = 0x3000 → stored rel) ∧ (w &&& 0xF000 = 0xB000 → stored (s.memRead rel)) ∧
    (w &&& 0xF000 = 0x7000 → stored base)

/-- 42_control.md R150 and 30_encoding.md R66, encoding and effect together. The mask order is the spec's decision D5. -/
def Obligations.StepAtBranchWords : Prop :=
  ∀ (s : State) (w : Word), s.fetches → s.memRead s.pc = w → w &&& 0xF000 = 0x0000 →
    let taken := (w.getLsbD 11 ∧ s.cc = .N) ∨ (w.getLsbD 10 ∧ s.cc = .Z) ∨ (w.getLsbD 9 ∧ s.cc = .P)
    (taken → step s = .next { s with pc := s.pc + 1 + (w.extractLsb' 0 9).signExtend 16 }) ∧
    (¬ taken → step s = .next { s with pc := s.pc + 1 })

/-- 42_control.md R152, R154, R155, encoding and effect together (D1). JSRR reads its target before it writes R7
(D15). -/
def Obligations.StepAtJumpAndCallWords : Prop :=
  ∀ (s : State) (w : Word), s.fetches → s.memRead s.pc = w →
    let base := s.getReg (w.extractLsb' 6 3).toFin
    (w &&& 0xF000 = 0xC000 → step s = .next { s with pc := base }) ∧
    (w &&& 0xF800 = 0x4800 →
      step s = .next { s with pc := s.pc + 1 + (w.extractLsb' 0 11).signExtend 16,
                              regs := s.regs.set 7 (s.pc + 1) }) ∧
    (w &&& 0xF800 = 0x4000 → step s = .next { s with pc := base, regs := s.regs.set 7 (s.pc + 1) })

/-- 43_trap.md R171 and R179 at the word level: the vector chooses the service, and any other vector faults with
TrapError(UnknownVector(v)), changing nothing else. The codes are the spec's decision D6; bits [11:8] are ignored
(D2). -/
def Obligations.StepAtTrapWords : Prop :=
  ∀ (s : State) (w : Word), s.fetches → s.memRead s.pc = w →
    let s1 : State := { s with pc := s.pc + 1 }
    let v : BitVec 8 := w.extractLsb' 0 8
    (w &&& 0xF0FF = 0xF020 → step s = exec .getc s1) ∧ (w &&& 0xF0FF = 0xF021 → step s = exec .out s1) ∧
    (w &&& 0xF0FF = 0xF022 → step s = exec .puts s1) ∧ (w &&& 0xF0FF = 0xF023 → step s = exec .inp s1) ∧
    (w &&& 0xF0FF = 0xF024 → step s = exec .putsp s1) ∧ (w &&& 0xF0FF = 0xF025 → step s = exec .halt s1) ∧
    (w &&& 0xF000 = 0xF000 → (v < 0x20 ∨ 0x25 < v) →
      step s = .next { s1 with run := .faulted (.trapError (.unknownVector v)) })

/-! ### Results: every instruction completes -/

/-- 40_operate.md R100 to R104: each operate instruction completes in every state, writing DR and cc and nothing
else. -/
def Obligations.OperateInstructionsComplete : Prop :=
  ∀ (s : State) (dr sr1 sr2 : Reg) (imm : BitVec 5),
    let done : Word → Result := fun r => .next { s with regs := s.regs.set dr.val r, cc := ccOf r }
    exec (.addReg dr sr1 sr2) s = done (s.getReg sr1 + s.getReg sr2) ∧
    exec (.addImm dr sr1 imm) s = done (s.getReg sr1 + imm.signExtend 16) ∧
    exec (.andReg dr sr1 sr2) s = done (s.getReg sr1 &&& s.getReg sr2) ∧
    exec (.andImm dr sr1 imm) s = done (s.getReg sr1 &&& imm.signExtend 16) ∧
    exec (.not dr sr1) s = done (~~~(s.getReg sr1))

/-- 41_data_movement.md R120 to R123: each load and LEA completes in every state (`s.pc` is the incremented pc). -/
def Obligations.LoadsAndLeaComplete : Prop :=
  ∀ (s : State) (dr base : Reg) (off9 : BitVec 9) (off6 : BitVec 6),
    let rel := s.pc + off9.signExtend 16
    let done : Word → Result := fun r => .next { s with regs := s.regs.set dr.val r, cc := ccOf r }
    exec (.ld dr off9) s = done (s.memRead rel) ∧
    exec (.ldi dr off9) s = done (s.memRead (s.memRead rel)) ∧
    exec (.ldr dr base off6) s = done (s.memRead (s.getReg base + off6.signExtend 16)) ∧
    exec (.lea dr off9) s = done rel

/-- 41_data_movement.md R124 to R126: each store completes in every state, changing memory alone: the word at its
address, which reads back as the register stored, and no other. -/
def Obligations.StoresCompleteAndWriteOneWord : Prop :=
  ∀ (s : State) (sr base : Reg) (off9 : BitVec 9) (off6 : BitVec 6), s.mem.wf →
    let rel := s.pc + off9.signExtend 16
    let stored : Result → Word → Prop := fun r ea =>
      ∃ m : Memory, r = .next { s with mem := m } ∧ m.read ea.toNat = s.getReg sr ∧
        ∀ a : Word, a ≠ ea → m.read a.toNat = s.memRead a
    stored (exec (.st sr off9) s) rel ∧ stored (exec (.sti sr off9) s) (s.memRead rel) ∧
    stored (exec (.str sr base off6) s) (s.getReg base + off6.signExtend 16)

/-- 42_control.md R150, R152, R154, R155: each control transfer completes in every state. With the mask 000 BR changes
nothing, with 111 it always branches (30_encoding.md R66). JSRR's target is read first (D15), R7 included. -/
def Obligations.ControlTransfersComplete : Prop :=
  ∀ (s : State) (n z p : Bool) (off9 : BitVec 9) (off11 : BitVec 11) (base : Reg),
    exec (.br n z p off9) s =
      .next { s with pc := if (n = true ∧ s.cc = .N) ∨ (z = true ∧ s.cc = .Z) ∨ (p = true ∧ s.cc = .P)
                           then s.pc + off9.signExtend 16 else s.pc } ∧
    exec (.br false false false off9) s = .next s ∧
    exec (.br true true true off9) s = .next { s with pc := s.pc + off9.signExtend 16 } ∧
    exec (.jmp base) s = .next { s with pc := s.getReg base } ∧
    exec .ret s = .next { s with pc := s.getReg 7 } ∧
    exec (.jsr off11) s = .next { s with pc := s.pc + off11.signExtend 16, regs := s.regs.set 7 s.pc } ∧
    exec (.jsrr base) s = .next { s with pc := s.getReg base, regs := s.regs.set 7 s.pc }

/-- 42_control.md R157, R158: RTI and the reserved opcode enter Faulted in every state, changing the run state alone. -/
def Obligations.RtiAndReservedEnterFaulted : Prop :=
  ∀ s : State, exec .rti s = .next { s with run := .faulted (.invalidOpcode .rti) } ∧
    exec .reserved s = .next { s with run := .faulted (.invalidOpcode .reserved) }

/-- 43_trap.md R173: GETC with a byte supplied completes; with a failure it faults and R0 keeps its value; with no reply
yet it waits and nothing else changes. The cleared high byte is the spec's decision D9, end of input as a failure D14,
cc unchanged D8; the reply list is the model's choice, assumption log 5. -/
def Obligations.GetcReadsOneByte : Prop :=
  ∀ s : State,
    (∀ b rest, s.consoleIn = .byte b :: rest →
      exec .getc s = .next { s with regs := s.regs.set 0 (b.setWidth 16), consoleIn := rest, wait := none }) ∧
    (∀ rest, s.consoleIn = .failed :: rest →
      exec .getc s = .next { s with run := .faulted (.trapError .io), consoleIn := rest, wait := none }) ∧
    (s.consoleIn = [] → exec .getc s = .next { s with wait := some .getc })

/-- 43_trap.md R174: OUT writes R0[7:0] and changes no register; a refused write faults with TrapError(IO) and writes
nothing. The write oracle's form is the model's choice, assumption log 7. -/
def Obligations.OutWritesTheLowByte : Prop :=
  ∀ s : State,
    (s.acceptsWrites 1 → exec .out s = .next (s.wrote [(s.getReg 0).extractLsb' 0 8])) ∧
    (s.writesUntilFail = some 0 → exec .out s = .next { s with run := .faulted (.trapError .io) })

/-- 43_trap.md R176: IN writes the prompt, reads a byte, echoes exactly that byte, then stores it in R0. For every
`IN_PROMPT` (D12, assumption log 8); the cleared high byte is D9. -/
def Obligations.InPromptsReadsAndEchoes : Prop :=
  ∀ (s : State) (b : Byte) rest, s.consoleIn = .byte b :: rest → s.acceptsWrites (inPrompt.length + 1) →
    exec .inp s = .next { s.wrote (inPrompt ++ [b]) with
      regs := s.regs.set 0 (b.setWidth 16), consoleIn := rest, wait := none }

/-- 43_trap.md R176, R180 and 60_exceptions.md R207: where IN fails, the first failing call decides: a prompt byte, before
anything is read and whatever the console would answer, the read, or the echo (as many writes accepted as the prompt has
bytes). The accepted bytes stay written and R0 keeps its value (D14). With no reply yet IN waits after its prompt. For every
prompt, and IN is the case of `IN_PROMPT` (D12, assumption log 8). -/
def Obligations.InFailsAtItsFirstFailingCall : Prop :=
  (∀ s : State, exec .inp s = .next (s.inWith inPrompt)) ∧
  ∀ (s : State) (prompt : List Byte),
    (∀ k, s.writesUntilFail = some k → k < prompt.length →
      s.inWith prompt = { s with
        consoleOut := s.consoleOut ++ prompt.take k, writesUntilFail := some 0, run := .faulted (.trapError .io) }) ∧
    (∀ b rest, s.writesUntilFail = some prompt.length → s.consoleIn = .byte b :: rest →
      s.inWith prompt = { s with
        consoleOut := s.consoleOut ++ prompt, writesUntilFail := some 0, run := .faulted (.trapError .io),
        consoleIn := rest, wait := none }) ∧
    (s.acceptsWrites prompt.length → s.consoleIn = [] →
      s.inWith prompt = { s.wrote prompt with wait := some .inp }) ∧
    ∀ rest, s.acceptsWrites prompt.length → s.consoleIn = .failed :: rest →
      s.inWith prompt = { s.wrote prompt with consoleIn := rest, wait := none, run := .faulted (.trapError .io) }

/-- 43_trap.md R175: PUTS writes the low byte of each word from R0 up to the first 0x0000 word, addresses wrapping, and
changes nothing else. Bits and wrap are the spec's decision D10. -/
def Obligations.PutsWritesTheString : Prop :=
  ∀ (s : State) (n : Nat),
    let word : Nat → Word := fun i => s.memRead (s.getReg 0 + BitVec.ofNat 16 i)
    (∀ i < n, word i ≠ 0) → word n = 0 → s.acceptsWrites n →
      exec .puts s = .next { s.wrote ((List.range n).map fun i => (word i).extractLsb' 0 8) with wait := none }

/-- 43_trap.md R177: PUTSP writes, for each word from R0 up to the first 0x0000 word, bits [7:0] and then bits [15:8] if
they are not zero. The order and the skip are the spec's decision D11. -/
def Obligations.PutspWritesThePackedString : Prop :=
  ∀ (s : State) (n : Nat),
    let word : Nat → Word := fun i => s.memRead (s.getReg 0 + BitVec.ofNat 16 i)
    let bytes : List Byte := (List.range n).flatMap fun i =>
      (word i).extractLsb' 0 8 :: if (word i).extractLsb' 8 8 = 0 then [] else [(word i).extractLsb' 8 8]
    (∀ i < n, word i ≠ 0) → word n = 0 → s.acceptsWrites bytes.length →
      exec .putsp s = .next { s.wrote bytes with wait := none }

/-- 43_trap.md R175, R177, R180: when the console refuses a byte of PUTS or PUTSP (write `k`, counted from 0, which word `m`
of the string gives), the bytes before it stay written, no register changes, and the run ends in TrapError(IO) (D14). -/
def Obligations.StringFailureKeepsTheBytesWritten : Prop :=
  ∀ (s : State) (k m : Nat),
    let word : Nat → Word := fun i => s.memRead (s.getReg 0 + BitVec.ofNat 16 i)
    let packed : Nat → List Byte := fun i =>
      (word i).extractLsb' 0 8 :: if (word i).extractLsb' 8 8 = 0 then [] else [(word i).extractLsb' 8 8]
    let faulted : List Byte → Result := fun bs =>
      .next { s with consoleOut := s.consoleOut ++ bs.take k, writesUntilFail := some 0, wait := none,
                     run := .faulted (.trapError .io) }
    s.writesUntilFail = some k → m < 65536 → (∀ i ≤ m, word i ≠ 0) →
      (k = m → exec .puts s = faulted ((List.range (m + 1)).map fun i => (word i).extractLsb' 0 8)) ∧
      (((List.range m).flatMap packed).length ≤ k → k < ((List.range (m + 1)).flatMap packed).length →
        exec .putsp s = faulted ((List.range (m + 1)).flatMap packed))

/-- 43_trap.md R175, R177: PUTS and PUTSP come back to R0 without completing exactly when no word of memory is 0x0000 and
the console accepts the bytes of all 65536; those bytes are then written, and the service goes on the same way (D10). That a
turn round the memory is one step is the model's choice, assumption log 12. -/
def Obligations.StringServicesGoOnExactlyWithoutATerminator : Prop :=
  ∀ s : State,
    let word : Nat → Word := fun i => s.memRead (s.getReg 0 + BitVec.ofNat 16 i)
    let packed : Nat → List Byte := fun i =>
      (word i).extractLsb' 0 8 :: if (word i).extractLsb' 8 8 = 0 then [] else [(word i).extractLsb' 8 8]
    let goesOn : Instr → Service → List Byte → Prop := fun i svc bytes =>
      ((∃ t, exec i s = .next t ∧ t.wait = some svc) ↔ (∀ a, s.memRead a ≠ 0) ∧ s.acceptsWrites bytes.length) ∧
      ((∀ a, s.memRead a ≠ 0) → s.acceptsWrites bytes.length →
        exec i s = .next { s.wrote bytes with wait := some svc }) ∧
      (s.run = .running → s.wait = some svc → step s = exec i s)
    goesOn .puts .puts ((List.range 65536).map fun i => (word i).extractLsb' 0 8) ∧
    goesOn .putsp .putsp ((List.range 65536).flatMap packed)

/-- 43_trap.md R175, R177, 70_reset_and_hazards.md R229: with no 0x0000 word in memory and no failing write, PUTS and PUTSP
never complete (D10). That is one step without an end in the spec. The model's choice is a step for each turn round the
memory, with the service named in `wait` (assumption log 12): after any number of such steps and of replies the machine is
still in the service and Running, with nothing but the console's streams changed, and its output can be made as long as you
like. -/
def Obligations.StringServicesNeverEndWithoutATerminator : Prop :=
  ∀ (s : State) (svc : Service), s.run = .running → s.wait = some svc → svc = .puts ∨ svc = .putsp →
    (∀ a, s.memRead a ≠ 0) → s.writesUntilFail = none →
    (∀ t, Reaches s t → t.run = .running ∧ t.wait = some svc ∧ t.pc = s.pc ∧ t.regs = s.regs ∧ t.cc = s.cc ∧
      t.mem = s.mem ∧ ∃ bs, t.consoleOut = s.consoleOut ++ bs) ∧
    ∀ n : Nat, ∃ u, Reaches s u ∧ n ≤ u.consoleOut.length

/-- 43_trap.md R178: HALT stops the machine in every state: the run state becomes Halted and nothing else changes. That it
writes nothing is the spec's decision D13 (assumption log 9). -/
def Obligations.HaltStopsTheMachine : Prop :=
  ∀ s : State, exec .halt s = .next { s with run := .halted } ∧
    ∀ t, exec .halt s = .next t → step t = .fault .halted

/-- 43_trap.md R170, R171, R179: TRAP runs the service of its vector to completion, under any of the six codes (the
spec's decision D6), and faults with any other vector; it writes neither R7 nor cc (D7, D8). -/
def Obligations.TrapRunsTheServiceOfItsVector : Prop :=
  ∀ s : State,
    exec (.trap 0x25) s = .next { s with run := .halted } ∧
    (s.acceptsWrites 1 → exec (.trap 0x21) s = .next (s.wrote [(s.getReg 0).extractLsb' 0 8])) ∧
    (∀ b rest, s.consoleIn = .byte b :: rest →
      exec (.trap 0x20) s = .next { s with regs := s.regs.set 0 (b.setWidth 16), consoleIn := rest, wait := none }) ∧
    exec (.trap 0x22) s = exec .puts s ∧ exec (.trap 0x23) s = exec .inp s ∧ exec (.trap 0x24) s = exec .putsp s ∧
    ∀ v : BitVec 8, v < 0x20 ∨ 0x25 < v →
      exec (.trap v) s = .next { s with run := .faulted (.trapError (.unknownVector v)) }

/-! ### Frames: rules about every instruction -/

/-- 10_state.md R21: the only general register an instruction changes is the one the table gives it; TRAP writes no R7
(the spec's decision D7). -/
def Obligations.OnlyTheDestinationRegisterChanges : Prop :=
  ∀ (i : Instr) (s t : State) (r : Reg), exec i s = .next t → destReg i ≠ some r → t.getReg r = s.getReg r

/-- 10_state.md R28: ADD, AND, NOT, LD, LDI, LDR and LEA set cc from the value in DR, and nothing else writes it: no trap
service (the spec's decision D8), no store, no transfer. -/
def Obligations.OnlyDocumentedInstructionsWriteCc : Prop :=
  ∀ (i : Instr) (s t : State), exec i s = .next t →
    (setsCc i = false → t.cc = s.cc) ∧
    (setsCc i = true → ∃ dr, destReg i = some dr ∧ t.cc = ccOf (t.getReg dr))

/-- 20_memory.md R42, 43_trap.md R172: only ST, STI and STR change memory, and only the word at the address they store
to. -/
def Obligations.OnlyStoresChangeMemory : Prop :=
  ∀ (i : Instr) (s t : State) (a : Word), exec i s = .next t → storeAddr i s ≠ some a → t.memRead a = s.memRead a

/-- 10_state.md R25, 70_reset_and_hazards.md R224, R225: an instruction other than BR, JMP, RET, JSR and JSRR leaves the
pc at the incremented value, faults and HALT included; a service that goes on leaves it alone. -/
def Obligations.OnlyTransfersRedirectThePc : Prop :=
  (∀ (i : Instr) (s t : State), exec i s = .next t → transfersControl i = false → t.pc = s.pc) ∧
  (∀ s t : State, s.fetches → step s = .next t → transfersControl (decode (s.memRead s.pc)) = false →
    t.pc = s.pc + 1) ∧
  ∀ (s t : State) svc, s.wait = some svc → step s = .next t → t.pc = s.pc

/-- 10_state.md R34, 60_exceptions.md R212: the console is reached only through TRAP. Output only grows, and one TRAP
takes at most one reply, and only GETC and IN take one. -/
def Obligations.OnlyTrapsReachTheConsole : Prop :=
  ∀ (i : Instr) (s t : State), exec i s = .next t →
    (isTrap i = false → t.consoleIn = s.consoleIn ∧ t.consoleOut = s.consoleOut ∧
      t.writesUntilFail = s.writesUntilFail ∧ t.wait = s.wait) ∧
    (∃ bs, t.consoleOut = s.consoleOut ++ bs) ∧
    (t.consoleIn = s.consoleIn ∨ readsConsole i = true ∧ ∃ r, s.consoleIn = r :: t.consoleIn)

/-- 60_exceptions.md R201, 70_reset_and_hazards.md R229: a run ends only by HALT or by a fault the table gives the
instruction, and an instruction that is no TRAP, RTI or 0xD always completes and never ends the run. -/
def Obligations.OnlyHaltAndListedFaultsEndTheRun : Prop :=
  (∀ (i : Instr) (s t : State), s.run = .running → exec i s = .next t →
    t.run = .running ∨ (t.run = .halted ∧ isHalt i = true) ∨
      ∃ reason, t.run = .faulted reason ∧ mayRaise i reason = true) ∧
  ∀ (i : Instr) (s : State), isTrap i = false → i ≠ .rti → i ≠ .reserved →
    ∃ t, exec i s = .next t ∧ t.run = s.run

/-- 10_state.md R32: while a GETC or IN waits, a step changes nothing; a reply ends the wait in that step, with only R0, the
console and the run state touched; and a wait begins only in a GETC or IN to which no reply has come, and touches no
register, memory word or the pc. A wait step for each poll is the model's form, assumption log 6. -/
def Obligations.WaitChangesNothingUntilAReply : Prop :=
  (∀ (s : State) svc, s.run = .running → s.wait = some svc → readsConsole svc.instr = true → s.consoleIn = [] →
    step s = .next s) ∧
  (∀ (s : State) svc reply rest, s.run = .running → s.wait = some svc → readsConsole svc.instr = true →
    s.consoleIn = reply :: rest →
    ∃ t, step s = .next t ∧ t.wait = none ∧ t.consoleIn = rest ∧ t.pc = s.pc ∧ t.cc = s.cc ∧
      (∀ a, t.memRead a = s.memRead a) ∧ ∀ r : Reg, r ≠ 0 → t.getReg r = s.getReg r) ∧
  ∀ (i : Instr) (s t : State) svc, s.wait = none → exec i s = .next t → t.wait = some svc →
    readsConsole svc.instr = true → readsConsole i = true ∧ s.consoleIn = [] ∧ t.regs = s.regs ∧ t.pc = s.pc ∧ t.cc = s.cc ∧ t.mem = s.mem ∧
      t.run = s.run

/-- 43_trap.md R173, R176: when the console answers a waiting GETC or IN with a byte, the service completes as if the
byte had been there at once. -/
def Obligations.AReplyCompletesTheWaitingService : Prop :=
  ∀ (s : State) (b : Byte), s.run = .running → s.consoleIn = [] →
    (s.wait = some .getc → step (s.consoleReply (.byte b)) =
      .next { s with regs := s.regs.set 0 (b.setWidth 16), wait := none }) ∧
    (s.wait = some .inp → s.acceptsWrites 1 → step (s.consoleReply (.byte b)) =
      .next { s.wrote [b] with regs := s.regs.set 0 (b.setWidth 16), wait := none })

/-- 10_state.md R22: a register an instruction does not read does not matter to it: changing it beforehand changes nothing
but that register, or nothing at all where the instruction overwrites it. -/
def Obligations.RegistersNotReadDoNotMatter : Prop :=
  ∀ (i : Instr) (s : State) (r : Reg) (v : Word), r ∉ sourceRegs i →
    (destReg i ≠ some r → exec i (s.setReg r v) = mapNext (fun t => t.setReg r v) (exec i s)) ∧
    (destReg i = some r → isTrap i = false → exec i (s.setReg r v) = exec i s)

/-- 60_exceptions.md R206, 10_state.md R34: the console cannot reach the core unless a GETC or IN asks: for every other
instruction its replies do not matter. -/
def Obligations.RepliesMatterOnlyToGetcAndIn : Prop :=
  ∀ (i : Instr) (s : State) (q : List ReadReply), readsConsole i = false →
    exec i { s with consoleIn := q } = mapNext (fun t => { t with consoleIn := q }) (exec i s)

/-! ### Operands, condition code and arithmetic -/

/-- 10_state.md R27: `setcc`: Z for zero, N for a set bit 15, P otherwise; that is, the sign of the result read as a
signed value. -/
def Obligations.SetccFollowsTheSignOfTheResult : Prop :=
  ∀ v : Word, (v = 0x0000 → ccOf v = .Z) ∧ (v ≠ 0x0000 → v.getLsbD 15 = true → ccOf v = .N) ∧
    (v ≠ 0x0000 → v.getLsbD 15 = false → ccOf v = .P) ∧
    (ccOf v = .N ↔ v.toInt < 0) ∧ (ccOf v = .Z ↔ v.toInt = 0) ∧ (ccOf v = .P ↔ 0 < v.toInt)

/-- 00_scope.md R12: sign extension copies the field's top bit into every bit above it, as a number f or
f - 2^N + 65536; zero extension clears them. For the widths the formats use. -/
def Obligations.ExtensionFollowsItsRule : Prop :=
  ∀ N ∈ [5, 6, 8, 9, 11], ∀ f : BitVec N,
    (∀ i < 16, (sext f).getLsbD i = if i < N then f.getLsbD i else f.getLsbD (N - 1)) ∧
    (sext f).toNat = (if f.getLsbD (N - 1) then f.toNat + 65536 - 2 ^ N else f.toNat) ∧
    (∀ i < 16, (zext f).getLsbD i = if i < N then f.getLsbD i else false)

/-- 40_operate.md R105: ADD computes (a + b) mod 2^16, the same bits read as unsigned or as signed numbers; AND and NOT
are bitwise; cc reads each result as signed; and nothing records a carry or an overflow: the result in DR and its sign in
cc are all that changes. The immediate forms of ADD and AND follow the same laws on the extended immediate. -/
def Obligations.AluComputesModulo : Prop :=
  ∀ (s : State) (dr sr1 sr2 : Reg) (imm : BitVec 5),
    let a := s.getReg sr1
    let reads : State → Prop := fun t =>
      (t.cc = .N ↔ (t.getReg dr).toInt < 0) ∧ (t.cc = .Z ↔ (t.getReg dr).toInt = 0) ∧
      (t.cc = .P ↔ 0 < (t.getReg dr).toInt) ∧ t = { s with regs := s.regs.set dr.val (t.getReg dr), cc := t.cc }
    let sum : Instr → Word → Prop := fun i b => ∃ t, exec i s = .next t ∧ reads t ∧
      (t.getReg dr).toNat = (a.toNat + b.toNat) % 65536 ∧
      ∃ k : Int, (t.getReg dr).toInt = a.toInt + b.toInt + 65536 * k
    let conj : Instr → Word → Prop := fun i b => ∃ t, exec i s = .next t ∧ reads t ∧
      ∀ j, (t.getReg dr).getLsbD j = (a.getLsbD j && b.getLsbD j)
    sum (.addReg dr sr1 sr2) (s.getReg sr2) ∧ sum (.addImm dr sr1 imm) (imm.signExtend 16) ∧
    conj (.andReg dr sr1 sr2) (s.getReg sr2) ∧ conj (.andImm dr sr1 imm) (imm.signExtend 16) ∧
    ∃ t, exec (.not dr sr1) s = .next t ∧ reads t ∧ ∀ j < 16, (t.getReg dr).getLsbD j = !a.getLsbD j

/-! ### Memory and the Loader -/

/-- 20_memory.md R54: after any sequence of stores, a read returns the word of the most recent one to its address, and
with none the word that was there before. -/
def Obligations.ReadReturnsTheLatestWrite : Prop :=
  ∀ (s : State) (stores : List (Word × Word)) (a : Word), s.mem.wf →
    (stores.foldl (fun t w => t.memWrite w.1 w.2) s).memRead a =
      match stores.reverse.find? (fun w => w.1 == a) with
      | some w => w.2
      | none => s.memRead a

/-- Canonical memories that read the same at every address are equal, so equal memories are equal data (the model's
choice of form, assumption log 1). -/
def Obligations.CanonicalMemoriesAreFixedByTheirReads : Prop :=
  ∀ m n : Memory, m.wf → n.wf → (∀ a : Word, m.read a.toNat = n.read a.toNat) → m = n

/-- 20_memory.md R56: a store to the next instruction's address, by ST, STI or STR, is seen by the very next fetch. -/
def Obligations.AStoreIsSeenByTheNextFetch : Prop :=
  ∀ s : State, s.mem.wf → s.fetches →
    storeAddr (decode (s.memRead s.pc)) { s with pc := s.pc + 1 } = some (s.pc + 1) →
    ∃ sr t, storedReg (decode (s.memRead s.pc)) = some sr ∧ step s = .next t ∧ t.pc = s.pc + 1 ∧
      t.memRead t.pc = s.getReg sr ∧ step t = exec (decode (s.getReg sr)) { t with pc := t.pc + 1 }

/-- 20_memory.md R50: the Loader writes word i at origin + i and nothing else, so every other cell keeps 0x0000, and it
touches no register: the engine sets the pc to the origin. -/
def Obligations.LoaderPlacesTheImage : Prop :=
  ∀ (l : Launch) (origin : Word) (words : List Word) (s : State), boot l origin words = .ok s →
    s.pc = origin ∧ s.regs = l.gprReset ∧ s.mem.wf ∧
    (∀ i (h : i < words.length), s.mem.read (origin.toNat + i) = words[i]) ∧
    ∀ a, (a < origin.toNat ∨ origin.toNat + words.length ≤ a) → s.mem.read a = 0x0000

/-- 20_memory.md R51: load fails, and nothing runs, in exactly two cases: an empty image, or a last address above 0xFFFF
computed without wraparound. -/
def Obligations.LoaderRefusesExactlyTwoImages : Prop :=
  ∀ (l : Launch) (origin : Word) (words : List Word),
    ((∃ e, load [] origin words = .error e) ↔ words = [] ∨ origin.toNat + words.length - 1 > 0xFFFF) ∧
    ((∃ e, boot l origin words = .error e) ↔ words = [] ∨ origin.toNat + words.length - 1 > 0xFFFF)

/-- 20_memory.md R52: the wire image is big-endian: two bytes of origin, then two bytes a word. Fewer than two bytes, or
an odd count, is malformed (the spec's decision D20). -/
def Obligations.WireImageIsBigEndian : Prop :=
  (∀ (bytes : List Byte), (bytes.length < 2 ∨ bytes.length % 2 = 1) → parseImage bytes = .error .malformedImage) ∧
  ∀ (origin : Word) (words : List Word),
    parseImage ((origin :: words).flatMap fun w => [w.extractLsb' 8 8, w.extractLsb' 0 8]) = .ok (origin, words)

/-- 60_exceptions.md R205: exit status 0 on Halted, non-zero on Faulted or load failure, none while the run goes on. -/
def Obligations.ExitStatusIsZeroExactlyOnHalted : Prop :=
  RunState.halted.exitStatus = some 0 ∧
  (∀ reason, ∃ n, (RunState.faulted reason).exitStatus = some n ∧ n ≠ 0) ∧
  (∀ e : LoadError, e.exitStatus ≠ 0) ∧ RunState.running.exitStatus = none

/-! ### Reset, the invariant and runs -/

/-- 10_state.md R37 and 70_reset_and_hazards.md R220: after reset every memory word is 0x0000, the run is Running and the
output empty. The registers' 0x0000 and cc's Z are the spec's decisions D3 and D4; the pc's 0x3000 is the model's choice,
assumption log 2 (`ORIGIN` is open, D22). -/
def Obligations.ResetLeavesTheTabledValues : Prop :=
  (∀ a, State.reset.memRead a = 0x0000) ∧ State.reset.run = .running ∧ State.reset.consoleOut = [] ∧
  (∀ r, State.reset.getReg r = 0x0000) ∧ State.reset.cc = .Z ∧ State.reset.pc = 0x3000 ∧ State.reset.wait = none

/-- The invariant holds after reset. -/
def Obligations.ResetMeetsTheInvariant : Prop := State.reset.Inv

/-- From every state that meets the invariant, a step gives a state that meets it: memory stays canonical, an
uncompleted service is that of the TRAP at pc - 1, and an ended run names the instruction there that ended it (60_exceptions.md sections 1 and
2, 70_reset_and_hazards.md section 2, 10_state.md section 4). -/
def Obligations.EveryStepKeepsTheInvariant : Prop :=
  ∀ s t : State, s.Inv → step s = .next t → t.Inv

/-- Every run of every image, under any register and cc values and any answers of the console at any time, keeps the
invariant. -/
def Obligations.EveryRunKeepsTheInvariant : Prop :=
  ∀ (l : Launch) (origin : Word) (words : List Word) (s t : State), boot l origin words = .ok s → Reaches s t → t.Inv

/-- 60_exceptions.md sections 1 and 2: a machine whose memory holds no TRAP, RTI, 0xD or store word never faults,
never halts and never waits in a service: every state it reaches has a next state. -/
def Obligations.PlainCodeRunsForever : Prop :=
  ∀ s : State, s.fetches →
    (∀ a, isTrap (decode (s.memRead a)) = false ∧ decode (s.memRead a) ≠ .rti ∧
      decode (s.memRead a) ≠ .reserved ∧ ∀ u, storeAddr (decode (s.memRead a)) u = none) →
    SafeRun s ∧ ∀ t, Reaches s t → t.wait = none ∧ ∃ u, step t = .next u

/-- 42_control.md R154, R152: a JSR to a RET comes back to the word after the JSR, with the link in R7. -/
def Obligations.CallThenReturnComesBack : Prop :=
  ∀ (s : State) (off : BitVec 11), s.fetches → decode (s.memRead s.pc) = .jsr off →
    decode (s.memRead (s.pc + 1 + off.signExtend 16)) = .ret →
    ∃ t u, step s = .next t ∧ step t = .next u ∧ u.pc = s.pc + 1 ∧ u.getReg 7 = s.pc + 1 ∧ u.cc = s.cc ∧
      (∀ a, u.memRead a = s.memRead a) ∧ ∀ r : Reg, r ≠ 7 → u.getReg r = s.getReg r

/-- 70_reset_and_hazards.md R220 and 10_state.md R37: what a run starts with, for every image the Loader takes: the registers
at `GPR_RESET` and cc at `CC_RESET` (parameters, D3 and D4), Running, nothing written, the image's origin in the pc, memory
as the Loader leaves it. That no service is under way is the model's field `wait`, and the console's fields are those of
assumption logs 5 and 7. -/
def Obligations.ARunStartsWithTheTabledState : Prop :=
  ∀ (l : Launch) (origin : Word) (words : List Word),
    (∀ m, load [] origin words = .ok m → ∃ s, boot l origin words = .ok s ∧ s.mem = m) ∧
    ∀ s, boot l origin words = .ok s →
      (∀ r : Reg, s.getReg r = l.gprReset[r.val]) ∧ s.cc = l.ccReset ∧ s.pc = origin ∧ s.run = .running ∧
      s.consoleOut = [] ∧ load [] origin words = .ok s.mem ∧ s.wait = none ∧ s.consoleIn = l.consoleIn ∧
      s.writesUntilFail = l.writesUntilFail
end

