-- ==== Sys2Proof/Laws/State.lean ====
section
/-! SUPPORT. One lemma per field per update of the state, true by `rfl`, and the reads of an updated state. -/

namespace Sys2Proof.Machine

/-! ### `setReg` -/

@[simp] theorem setReg_regs (s : State) (r : Reg) (v : Word) : (s.setReg r v).regs = s.regs.set r.val v := rfl
@[simp] theorem setReg_pc (s : State) (r : Reg) (v : Word) : (s.setReg r v).pc = s.pc := rfl
@[simp] theorem setReg_cc (s : State) (r : Reg) (v : Word) : (s.setReg r v).cc = s.cc := rfl
@[simp] theorem setReg_mem (s : State) (r : Reg) (v : Word) : (s.setReg r v).mem = s.mem := rfl
@[simp] theorem setReg_run (s : State) (r : Reg) (v : Word) : (s.setReg r v).run = s.run := rfl
@[simp] theorem setReg_wait (s : State) (r : Reg) (v : Word) : (s.setReg r v).wait = s.wait := rfl
@[simp] theorem setReg_consoleIn (s : State) (r : Reg) (v : Word) : (s.setReg r v).consoleIn = s.consoleIn := rfl
@[simp] theorem setReg_consoleOut (s : State) (r : Reg) (v : Word) : (s.setReg r v).consoleOut = s.consoleOut := rfl
@[simp] theorem setReg_writesUntilFail (s : State) (r : Reg) (v : Word) : (s.setReg r v).writesUntilFail = s.writesUntilFail := rfl

/-! ### `setPc` -/

@[simp] theorem setPc_regs (s : State) (t : Word) : (s.setPc t).regs = s.regs := rfl
@[simp] theorem setPc_pc (s : State) (t : Word) : (s.setPc t).pc = t := rfl
@[simp] theorem setPc_cc (s : State) (t : Word) : (s.setPc t).cc = s.cc := rfl
@[simp] theorem setPc_mem (s : State) (t : Word) : (s.setPc t).mem = s.mem := rfl
@[simp] theorem setPc_run (s : State) (t : Word) : (s.setPc t).run = s.run := rfl
@[simp] theorem setPc_wait (s : State) (t : Word) : (s.setPc t).wait = s.wait := rfl
@[simp] theorem setPc_consoleIn (s : State) (t : Word) : (s.setPc t).consoleIn = s.consoleIn := rfl
@[simp] theorem setPc_consoleOut (s : State) (t : Word) : (s.setPc t).consoleOut = s.consoleOut := rfl
@[simp] theorem setPc_writesUntilFail (s : State) (t : Word) : (s.setPc t).writesUntilFail = s.writesUntilFail := rfl

/-! ### `setCc` -/

@[simp] theorem setCc_regs (s : State) (c : CC) : (s.setCc c).regs = s.regs := rfl
@[simp] theorem setCc_pc (s : State) (c : CC) : (s.setCc c).pc = s.pc := rfl
@[simp] theorem setCc_cc (s : State) (c : CC) : (s.setCc c).cc = c := rfl
@[simp] theorem setCc_mem (s : State) (c : CC) : (s.setCc c).mem = s.mem := rfl
@[simp] theorem setCc_run (s : State) (c : CC) : (s.setCc c).run = s.run := rfl
@[simp] theorem setCc_wait (s : State) (c : CC) : (s.setCc c).wait = s.wait := rfl
@[simp] theorem setCc_consoleIn (s : State) (c : CC) : (s.setCc c).consoleIn = s.consoleIn := rfl
@[simp] theorem setCc_consoleOut (s : State) (c : CC) : (s.setCc c).consoleOut = s.consoleOut := rfl
@[simp] theorem setCc_writesUntilFail (s : State) (c : CC) : (s.setCc c).writesUntilFail = s.writesUntilFail := rfl

/-! ### `memWrite` -/

@[simp] theorem memWrite_regs (s : State) (a v : Word) : (s.memWrite a v).regs = s.regs := rfl
@[simp] theorem memWrite_pc (s : State) (a v : Word) : (s.memWrite a v).pc = s.pc := rfl
@[simp] theorem memWrite_cc (s : State) (a v : Word) : (s.memWrite a v).cc = s.cc := rfl
@[simp] theorem memWrite_mem (s : State) (a v : Word) : (s.memWrite a v).mem = s.mem.write a.toNat v := rfl
@[simp] theorem memWrite_run (s : State) (a v : Word) : (s.memWrite a v).run = s.run := rfl
@[simp] theorem memWrite_wait (s : State) (a v : Word) : (s.memWrite a v).wait = s.wait := rfl
@[simp] theorem memWrite_consoleIn (s : State) (a v : Word) : (s.memWrite a v).consoleIn = s.consoleIn := rfl
@[simp] theorem memWrite_consoleOut (s : State) (a v : Word) : (s.memWrite a v).consoleOut = s.consoleOut := rfl
@[simp] theorem memWrite_writesUntilFail (s : State) (a v : Word) : (s.memWrite a v).writesUntilFail = s.writesUntilFail := rfl

/-! ### `advance` -/

@[simp] theorem advance_regs (s : State) : (s.advance).regs = s.regs := rfl
@[simp] theorem advance_pc (s : State) : (s.advance).pc = s.pc + 1 := rfl
@[simp] theorem advance_cc (s : State) : (s.advance).cc = s.cc := rfl
@[simp] theorem advance_mem (s : State) : (s.advance).mem = s.mem := rfl
@[simp] theorem advance_run (s : State) : (s.advance).run = s.run := rfl
@[simp] theorem advance_wait (s : State) : (s.advance).wait = s.wait := rfl
@[simp] theorem advance_consoleIn (s : State) : (s.advance).consoleIn = s.consoleIn := rfl
@[simp] theorem advance_consoleOut (s : State) : (s.advance).consoleOut = s.consoleOut := rfl
@[simp] theorem advance_writesUntilFail (s : State) : (s.advance).writesUntilFail = s.writesUntilFail := rfl

/-! ### `raiseFault` -/

@[simp] theorem raiseFault_regs (s : State) (reason : FaultReason) : (s.raiseFault reason).regs = s.regs := rfl
@[simp] theorem raiseFault_pc (s : State) (reason : FaultReason) : (s.raiseFault reason).pc = s.pc := rfl
@[simp] theorem raiseFault_cc (s : State) (reason : FaultReason) : (s.raiseFault reason).cc = s.cc := rfl
@[simp] theorem raiseFault_mem (s : State) (reason : FaultReason) : (s.raiseFault reason).mem = s.mem := rfl
@[simp] theorem raiseFault_run (s : State) (reason : FaultReason) : (s.raiseFault reason).run = .faulted reason := rfl
@[simp] theorem raiseFault_wait (s : State) (reason : FaultReason) : (s.raiseFault reason).wait = s.wait := rfl
@[simp] theorem raiseFault_consoleIn (s : State) (reason : FaultReason) : (s.raiseFault reason).consoleIn = s.consoleIn := rfl
@[simp] theorem raiseFault_consoleOut (s : State) (reason : FaultReason) : (s.raiseFault reason).consoleOut = s.consoleOut := rfl
@[simp] theorem raiseFault_writesUntilFail (s : State) (reason : FaultReason) : (s.raiseFault reason).writesUntilFail = s.writesUntilFail := rfl

/-! ### `halt` -/

@[simp] theorem halt_regs (s : State) : (s.halt).regs = s.regs := rfl
@[simp] theorem halt_pc (s : State) : (s.halt).pc = s.pc := rfl
@[simp] theorem halt_cc (s : State) : (s.halt).cc = s.cc := rfl
@[simp] theorem halt_mem (s : State) : (s.halt).mem = s.mem := rfl
@[simp] theorem halt_run (s : State) : (s.halt).run = .halted := rfl
@[simp] theorem halt_wait (s : State) : (s.halt).wait = s.wait := rfl
@[simp] theorem halt_consoleIn (s : State) : (s.halt).consoleIn = s.consoleIn := rfl
@[simp] theorem halt_consoleOut (s : State) : (s.halt).consoleOut = s.consoleOut := rfl
@[simp] theorem halt_writesUntilFail (s : State) : (s.halt).writesUntilFail = s.writesUntilFail := rfl

/-! ### `ioFault` -/

@[simp] theorem ioFault_regs (s : State) : (s.ioFault).regs = s.regs := rfl
@[simp] theorem ioFault_pc (s : State) : (s.ioFault).pc = s.pc := rfl
@[simp] theorem ioFault_cc (s : State) : (s.ioFault).cc = s.cc := rfl
@[simp] theorem ioFault_mem (s : State) : (s.ioFault).mem = s.mem := rfl
@[simp] theorem ioFault_run (s : State) : (s.ioFault).run = .faulted (.trapError .io) := rfl
@[simp] theorem ioFault_wait (s : State) : (s.ioFault).wait = s.wait := rfl
@[simp] theorem ioFault_consoleIn (s : State) : (s.ioFault).consoleIn = s.consoleIn := rfl
@[simp] theorem ioFault_consoleOut (s : State) : (s.ioFault).consoleOut = s.consoleOut := rfl
@[simp] theorem ioFault_writesUntilFail (s : State) : (s.ioFault).writesUntilFail = s.writesUntilFail := rfl

/-! ### `writeResult` -/

@[simp] theorem writeResult_regs (s : State) (dr : Reg) (v : Word) : (s.writeResult dr v).regs = s.regs.set dr.val v := rfl
@[simp] theorem writeResult_pc (s : State) (dr : Reg) (v : Word) : (s.writeResult dr v).pc = s.pc := rfl
@[simp] theorem writeResult_cc (s : State) (dr : Reg) (v : Word) : (s.writeResult dr v).cc = ccOf v := rfl
@[simp] theorem writeResult_mem (s : State) (dr : Reg) (v : Word) : (s.writeResult dr v).mem = s.mem := rfl
@[simp] theorem writeResult_run (s : State) (dr : Reg) (v : Word) : (s.writeResult dr v).run = s.run := rfl
@[simp] theorem writeResult_wait (s : State) (dr : Reg) (v : Word) : (s.writeResult dr v).wait = s.wait := rfl
@[simp] theorem writeResult_consoleIn (s : State) (dr : Reg) (v : Word) : (s.writeResult dr v).consoleIn = s.consoleIn := rfl
@[simp] theorem writeResult_consoleOut (s : State) (dr : Reg) (v : Word) : (s.writeResult dr v).consoleOut = s.consoleOut := rfl
@[simp] theorem writeResult_writesUntilFail (s : State) (dr : Reg) (v : Word) : (s.writeResult dr v).writesUntilFail = s.writesUntilFail := rfl

/-! ### `call` -/

@[simp] theorem call_regs (s : State) (target : Word) : (s.call target).regs = s.regs.set 7 s.pc := rfl
@[simp] theorem call_pc (s : State) (target : Word) : (s.call target).pc = target := rfl
@[simp] theorem call_cc (s : State) (target : Word) : (s.call target).cc = s.cc := rfl
@[simp] theorem call_mem (s : State) (target : Word) : (s.call target).mem = s.mem := rfl
@[simp] theorem call_run (s : State) (target : Word) : (s.call target).run = s.run := rfl
@[simp] theorem call_wait (s : State) (target : Word) : (s.call target).wait = s.wait := rfl
@[simp] theorem call_consoleIn (s : State) (target : Word) : (s.call target).consoleIn = s.consoleIn := rfl
@[simp] theorem call_consoleOut (s : State) (target : Word) : (s.call target).consoleOut = s.consoleOut := rfl
@[simp] theorem call_writesUntilFail (s : State) (target : Word) : (s.call target).writesUntilFail = s.writesUntilFail := rfl

/-! ### `consoleReply` -/

@[simp] theorem consoleReply_regs (s : State) (r : ReadReply) : (s.consoleReply r).regs = s.regs := rfl
@[simp] theorem consoleReply_pc (s : State) (r : ReadReply) : (s.consoleReply r).pc = s.pc := rfl
@[simp] theorem consoleReply_cc (s : State) (r : ReadReply) : (s.consoleReply r).cc = s.cc := rfl
@[simp] theorem consoleReply_mem (s : State) (r : ReadReply) : (s.consoleReply r).mem = s.mem := rfl
@[simp] theorem consoleReply_run (s : State) (r : ReadReply) : (s.consoleReply r).run = s.run := rfl
@[simp] theorem consoleReply_wait (s : State) (r : ReadReply) : (s.consoleReply r).wait = s.wait := rfl
@[simp] theorem consoleReply_consoleIn (s : State) (r : ReadReply) : (s.consoleReply r).consoleIn = s.consoleIn ++ [r] := rfl
@[simp] theorem consoleReply_consoleOut (s : State) (r : ReadReply) : (s.consoleReply r).consoleOut = s.consoleOut := rfl
@[simp] theorem consoleReply_writesUntilFail (s : State) (r : ReadReply) : (s.consoleReply r).writesUntilFail = s.writesUntilFail := rfl

/-! ### `wrote` -/

@[simp] theorem wrote_regs (s : State) (bs : List Byte) : (s.wrote bs).regs = s.regs := rfl
@[simp] theorem wrote_pc (s : State) (bs : List Byte) : (s.wrote bs).pc = s.pc := rfl
@[simp] theorem wrote_cc (s : State) (bs : List Byte) : (s.wrote bs).cc = s.cc := rfl
@[simp] theorem wrote_mem (s : State) (bs : List Byte) : (s.wrote bs).mem = s.mem := rfl
@[simp] theorem wrote_run (s : State) (bs : List Byte) : (s.wrote bs).run = s.run := rfl
@[simp] theorem wrote_wait (s : State) (bs : List Byte) : (s.wrote bs).wait = s.wait := rfl
@[simp] theorem wrote_consoleIn (s : State) (bs : List Byte) : (s.wrote bs).consoleIn = s.consoleIn := rfl
@[simp] theorem wrote_consoleOut (s : State) (bs : List Byte) : (s.wrote bs).consoleOut = s.consoleOut ++ bs := rfl
@[simp] theorem wrote_writesUntilFail (s : State) (bs : List Byte) : (s.wrote bs).writesUntilFail = s.writesUntilFail.map (· - bs.length) := rfl

/-! ### Reads of an updated state -/

/-- Reading a register looks at the register file alone. -/
theorem getReg_of_regs {s t : State} (h : t.regs = s.regs) (r : Reg) : t.getReg r = s.getReg r := by
  simp only [State.getReg, h]

/-- Reading memory looks at memory alone. -/
theorem memRead_of_mem {s t : State} (h : t.mem = s.mem) (a : Word) : t.memRead a = s.memRead a := by
  simp only [State.memRead, h]

/-- A register written reads back, and no other register changes. -/
@[simp] theorem getReg_setReg (s : State) (r q : Reg) (v : Word) :
    (s.setReg r v).getReg q = if q = r then v else s.getReg q := by
  simp only [State.getReg, State.setReg, Vector.getElem_set, Fin.ext_iff, eq_comm]

/-- Writing one register twice keeps the later value. -/
theorem setReg_setReg_same (s : State) (r : Reg) (u v : Word) : (s.setReg r u).setReg r v = s.setReg r v := by
  simp [State.setReg]

/-- Writes to different registers commute. -/
theorem setReg_setReg_comm (s : State) {q r : Reg} (h : q ≠ r) (u v : Word) :
    (s.setReg q u).setReg r v = (s.setReg r v).setReg q u := by
  simp only [State.setReg, Vector.set_comm u v (Fin.val_ne_of_ne h)]

@[simp] theorem getReg_writeResult (s : State) (dr q : Reg) (v : Word) :
    (s.writeResult dr v).getReg q = if q = dr then v else s.getReg q := getReg_setReg s dr q v

@[simp] theorem getReg_call (s : State) (target : Word) (q : Reg) :
    (s.call target).getReg q = if q = 7 then s.pc else s.getReg q := getReg_setReg (s.setPc target) 7 q s.pc

end Sys2Proof.Machine
end

