-- ==== Sys2Proof/Laws/Console.lean ====
section
/-! SUPPORT. What the console operations and the string services can do, said once for each. -/

namespace Sys2Proof.Machine

/-- `ConsoleWrite` accepts the byte and records it, or fails and changes nothing. -/
theorem consoleWrite_cases (s : State) (b : Byte) :
    (s.acceptsWrites 1 ∧ s.consoleWrite b = .ok (s.wrote [b])) ∨
    (s.writesUntilFail = some 0 ∧ s.consoleWrite b = .failed s) := by
  obtain ⟨regs, pc, cc, mem, run, wait, cin, cout, wuf⟩ := s
  rcases wuf with _ | _ | k <;> simp [State.acceptsWrites, State.consoleWrite, State.wrote]

@[simp] theorem wrote_nil (s : State) : s.wrote [] = s := by
  obtain ⟨regs, pc, cc, mem, run, wait, cin, cout, wuf⟩ := s
  cases wuf <;> simp [State.wrote]

theorem wrote_append (s : State) (bs cs : List Byte) : (s.wrote bs).wrote cs = s.wrote (bs ++ cs) := by
  obtain ⟨regs, pc, cc, mem, run, wait, cin, cout, wuf⟩ := s
  cases wuf <;> simp [State.wrote, Nat.sub_sub]

theorem acceptsWrites_wrote {s : State} {bs : List Byte} {n : Nat} (h : s.acceptsWrites (bs.length + n)) :
    (s.wrote bs).acceptsWrites n := by
  intro k hk
  simp only [wrote_writesUntilFail, Option.map_eq_some_iff] at hk
  obtain ⟨j, hj, rfl⟩ := hk
  have := h j hj
  omega

/-- The string write ends after all its bytes, if the console accepts that many, and else after the bytes it accepts. -/
theorem consoleWriteAll_cases (s : State) (bs : List Byte) :
    (s.acceptsWrites bs.length ∧ s.consoleWriteAll bs = .ok (s.wrote bs)) ∨
    ∃ k, s.writesUntilFail = some k ∧ k < bs.length ∧ s.consoleWriteAll bs = .failed (s.wrote (bs.take k)) := by
  induction bs generalizing s with
  | nil => exact .inl ⟨fun k _ => Nat.zero_le k, by simp [State.consoleWriteAll]⟩
  | cons b bs ih =>
    rcases consoleWrite_cases s b with ⟨h1, hw⟩ | ⟨h0, hw⟩
    · rcases ih (s.wrote [b]) with ⟨h2, hall⟩ | ⟨k, hk, hlt, hall⟩
      · left
        constructor
        · intro j hj
          have := h1 j hj
          have := h2 (j - 1) (by simp [hj])
          simp only [List.length_cons]
          omega
        · simp [State.consoleWriteAll, hw, hall, wrote_append]
      · right
        simp only [wrote_writesUntilFail, Option.map_eq_some_iff] at hk
        obtain ⟨j, hj, rfl⟩ := hk
        have := h1 j hj
        obtain ⟨i, rfl⟩ : ∃ i, j = i + 1 := ⟨j - 1, by omega⟩
        refine ⟨i + 1, hj, ?_, ?_⟩
        · simpa using hlt
        · simp [State.consoleWriteAll, hw, hall, wrote_append]
    · exact .inr ⟨0, h0, by simp, by simp [State.consoleWriteAll, hw]⟩

/-- Writes the console accepts are all recorded. -/
theorem consoleWriteAll_ok {s : State} {bs : List Byte} (h : s.acceptsWrites bs.length) :
    s.consoleWriteAll bs = .ok (s.wrote bs) := by
  rcases consoleWriteAll_cases s bs with ⟨-, hw⟩ | ⟨k, hk, hlt, -⟩
  · exact hw
  · exact absurd (h k hk) (by omega)

/-- A console read waits, gives its byte on, or faults. -/
theorem consoleRead_cases (s : State) (svc : Service) (k : State → Byte → State) :
    (s.consoleIn = [] ∧ s.consoleRead svc k = { s with wait := some svc }) ∨
    (∃ b rest, s.consoleIn = .byte b :: rest ∧
      s.consoleRead svc k = k { s with consoleIn := rest, wait := none } b) ∨
    ∃ rest, s.consoleIn = .failed :: rest ∧
      s.consoleRead svc k = { s with consoleIn := rest, wait := none, run := .faulted (.trapError .io) } := by
  obtain ⟨regs, pc, cc, mem, run, wait, cin, cout, wuf⟩ := s
  rcases cin with _ | ⟨_ | _, rest⟩ <;>
    simp [State.consoleRead, State.ioFault, State.raiseFault]

/-- One turn of the string loop: a terminator ends it, else the word's bytes are written. -/
theorem stringLoop_succ (emit : Word → List Byte) (n : Nat) (a : Word) (s : State) :
    stringLoop emit (n + 1) a s =
      if s.memRead a = 0 then .ended s
      else match s.consoleWriteAll (emit (s.memRead a)) with
        | .ok t => stringLoop emit n (a + 1) t
        | .failed t => .failed t := rfl

/-- Output alone changes in the string loop: however it stands, the state is the one it began in after some writes. -/
theorem stringLoop_wrote (emit : Word → List Byte) (n : Nat) (a : Word) (s : State) :
    ∃ bs, stringLoop emit n a s = .ended (s.wrote bs) ∨ stringLoop emit n a s = .failed (s.wrote bs) ∨
      stringLoop emit n a s = .goesOn (s.wrote bs) := by
  induction n generalizing a s with
  | zero => exact ⟨[], by simp [stringLoop]⟩
  | succ n ih =>
    rw [stringLoop_succ]
    split
    · exact ⟨[], by simp⟩
    · rcases consoleWriteAll_cases s (emit (s.memRead a)) with ⟨-, hw⟩ | ⟨k, -, -, hw⟩
      · obtain ⟨bs, h⟩ := ih (a + 1) (s.wrote (emit (s.memRead a)))
        refine ⟨emit (s.memRead a) ++ bs, ?_⟩
        simpa only [hw, wrote_append] using h
      · exact ⟨(emit (s.memRead a)).take k, by simp [hw]⟩

/-- What a turn of PUTS or PUTSP can do: complete, fault, or go on, each after some output. -/
theorem writeString_cases (s : State) (svc : Service) (emit : Word → List Byte) : ∃ bs,
    s.writeString svc emit = { s.wrote bs with wait := none } ∨
    s.writeString svc emit = { s.wrote bs with wait := none, run := .faulted (.trapError .io) } ∨
    s.writeString svc emit = { s.wrote bs with wait := some svc } := by
  obtain ⟨bs, h | h | h⟩ := stringLoop_wrote emit 65536 (s.getReg 0) s <;> refine ⟨bs, ?_⟩
  · left
    rw [State.writeString, h]
  · right; left
    rw [State.writeString, h]
    rfl
  · right; right
    rw [State.writeString, h]

end Sys2Proof.Machine
end

