-- ==== Sys2Proof/Laws/Decode.lean ====
section
/-! SUPPORT. Fields of a word as numbers, the words of the formats as numbers, and what a masked comparison says. -/

namespace Sys2Proof

theorem bits_toNat (w : Word) (lo n : Nat) : (bits w lo n).toNat = w.toNat / 2 ^ lo % 2 ^ n := by
  simp [bits, Nat.shiftRight_eq_div_pow]

theorem bit_eq (w : Word) (k : Nat) : bit w k = decide (w.toNat / 2 ^ k % 2 = 1) := by
  rw [bit, BitVec.getLsbD, Nat.testBit_eq_decide_div_mod_eq]

theorem regOf_eq_iff {f : BitVec 3} {r : Reg} : regOf f = r ↔ f.toNat = r.val := by
  simp [regOf, Fin.ext_iff]

@[simp] theorem regOf_val (f : BitVec 3) : (regOf f).val = f.toNat := rfl

@[simp] theorem regBits_toNat (r : Reg) : (regBits r).toNat = r.val := rfl

@[simp] theorem bitField_toNat (b : Bool) : (bitField b).toNat = b.toNat := by cases b <;> rfl

/-- A concatenation as a number. -/
theorem toNat_concat {m n : Nat} (x : BitVec m) (y : BitVec n) : (x ++ y).toNat = x.toNat * 2 ^ n + y.toNat := by
  rw [BitVec.toNat_append, ← Nat.shiftLeft_add_eq_or_of_lt y.isLt, Nat.shiftLeft_eq]

/-- The number of a word made of two fields. -/
theorem toNat_word2 {n : Nat} (op : BitVec 4) (x : BitVec n) (h : 4 + n = 16) :
    ((op ++ x).cast h).toNat = op.toNat * 2 ^ n + x.toNat := by
  rw [BitVec.toNat_cast, toNat_concat]

/-- A bit of a masked word. -/
theorem bit_and (w m : Word) (k : Nat) : bit (w &&& m) k = (bit w k && bit m k) := BitVec.getLsbD_and

/-- A field of a masked word. -/
theorem bits_and (w m : Word) (lo n : Nat) : bits (w &&& m) lo n = bits w lo n &&& bits m lo n := by
  apply BitVec.eq_of_getLsbD_eq
  intro i hi
  simp [bits, hi]

/-- The opcode of a word whose top four bits are compared with a row's. -/
theorem opcode_of_mask {w m v : Word} (hm : bits m 12 4 = 0xF#4) (h : w &&& m = v) : bits w 12 4 = bits v 12 4 := by
  rw [← h, bits_and, hm]
  exact (BitVec.and_allOnes (x := bits w 12 4)).symm

/-- A bit of a word whose row compares that bit. -/
theorem bit_of_mask {w m v : Word} {k : Nat} (hm : bit m k = true) (h : w &&& m = v) : bit w k = bit v k := by
  rw [← h, bit_and, hm, Bool.and_true]

/-- A field of a word whose row compares all of it. -/
theorem bits_of_mask {w m v : Word} {lo n : Nat} (hm : bits m lo n = BitVec.allOnes n) (h : w &&& m = v) :
    bits w lo n = bits v lo n := by
  rw [← h, bits_and, hm, BitVec.and_allOnes]

end Sys2Proof
end

