-- ==== Sys2Proof/Laws/Memory.lean ====
section
/-! SUPPORT. What a memory operation does: reads after writes, and the canonical form kept. -/

namespace Sys2Proof.Machine

theorem Memory.wf_nil : Memory.wf [] := by simp [Memory.wf]

/-- The tail of a canonical memory is canonical. -/
theorem Memory.wf_tail {c : Cell} {m : Memory} (h : Memory.wf (c :: m)) : m.wf :=
  ⟨(List.pairwise_cons.mp h.1).2, fun d hd => h.2 d (List.mem_cons_of_mem c hd)⟩

/-- An address below every listed one reads as unlisted. -/
theorem Memory.read_below {m : Memory} {a : Nat} (h : ∀ c ∈ m, a < c.1) : m.read a = Memory.unlisted := by
  induction m with
  | nil => rfl
  | cons c m ih =>
    have hc : c.1 ≠ a := Nat.ne_of_gt (h c List.mem_cons_self)
    simp only [Memory.read, hc, if_false]
    exact ih fun d hd => h d (List.mem_cons_of_mem c hd)

/-- Reading after `Memory.cons` at an address below the cells. -/
theorem Memory.read_cons {m : Memory} {a : Nat} (h : ∀ c ∈ m, a < c.1) (b : Nat) (v : Word) :
    (Memory.cons a v m).read b = if b = a then v else m.read b := by
  unfold Memory.cons
  by_cases hv : v = Memory.unlisted
  · by_cases hb : b = a
    · simp [hv, hb, Memory.read_below h]
    · simp [hv, hb]
  · simp [hv, Memory.read, eq_comm]

/-- The cells of a written memory are at the address written or at addresses listed before. -/
theorem Memory.mem_write {m : Memory} {a : Nat} {v : Word} {c : Cell} (h : c ∈ m.write a v) :
    (c.1 = a ∧ c.2 = v ∧ v ≠ Memory.unlisted) ∨ c ∈ m := by
  induction m with
  | nil =>
    by_cases hv : v = Memory.unlisted <;> simp_all [Memory.write, Memory.cons]
  | cons d m ih =>
    simp only [Memory.write, Memory.cons] at h
    split at h
    · split at h
      · exact .inr h
      · rcases List.mem_cons.mp h with rfl | h
        · exact .inl ⟨rfl, rfl, ‹_›⟩
        · exact .inr h
    · split at h
      · split at h
        · exact .inr (List.mem_cons_of_mem d h)
        · rcases List.mem_cons.mp h with rfl | h
          · exact .inl ⟨rfl, rfl, ‹_›⟩
          · exact .inr (List.mem_cons_of_mem d h)
      · rcases List.mem_cons.mp h with rfl | h
        · exact .inr List.mem_cons_self
        · exact (ih h).imp_right (List.mem_cons_of_mem d)

/-- In a canonical memory, a written address reads as the word written and every other address as before. -/
theorem Memory.read_write {m : Memory} (h : m.wf) (a b : Nat) (v : Word) :
    (m.write a v).read b = if b = a then v else m.read b := by
  induction m with
  | nil => exact Memory.read_cons (m := []) (by simp) b v
  | cons c m ih =>
    have hlt := (List.pairwise_cons.mp h.1).1
    simp only [Memory.write]
    split
    · rename_i hac
      refine Memory.read_cons (fun d hd => ?_) b v
      rcases List.mem_cons.mp hd with rfl | hd
      · exact hac
      · exact lt_trans hac (hlt d hd)
    · split
      · rename_i hac
        rw [Memory.read_cons (fun d hd => hac ▸ hlt d hd)]
        by_cases hb : b = a
        · simp [hb]
        · have : c.1 ≠ b := fun e => hb (by rw [hac, e])
          simp [hb, Memory.read, this]
      · rename_i hac
        simp only [Memory.read]
        by_cases hc : c.1 = b
        · have : b ≠ a := fun e => hac (by rw [hc, e])
          simp [hc, this]
        · simp [hc, ih (Memory.wf_tail h)]

/-- A write to one address leaves every other address alone, in any memory. -/
theorem Memory.read_write_other (m : Memory) {a b : Nat} (h : b ≠ a) (v : Word) : (m.write a v).read b = m.read b := by
  induction m with
  | nil =>
    by_cases hv : v = Memory.unlisted <;> simp [Memory.write, Memory.cons, Memory.read, hv, Ne.symm h]
  | cons c m ih =>
    simp only [Memory.write, Memory.cons]
    by_cases hc : a = c.1
    · by_cases hv : v = Memory.unlisted <;> simp [Memory.read, hv, ← hc, Ne.symm h]
    · rw [if_neg hc]
      split
      · by_cases hv : v = Memory.unlisted <;> simp [Memory.read, hv, Ne.symm h]
      · simp only [Memory.read, ih]

/-- Every write in the address space keeps the canonical form. -/
theorem Memory.write_wf {m : Memory} (h : m.wf) {a : Nat} (ha : a < 65536) (v : Word) : (m.write a v).wf := by
  refine ⟨?_, fun c hc => ?_⟩
  · induction m with
    | nil => by_cases hv : v = Memory.unlisted <;> simp [Memory.write, Memory.cons, hv]
    | cons d m ih =>
      have hd := List.pairwise_cons.mp h.1
      simp only [Memory.write, Memory.cons]
      split
      · rename_i had
        split
        · exact h.1
        · refine List.pairwise_cons.mpr ⟨fun c hc => ?_, h.1⟩
          rcases List.mem_cons.mp hc with rfl | hc
          · exact had
          · exact lt_trans had (hd.1 c hc)
      · split
        · rename_i had
          split
          · exact hd.2
          · exact List.pairwise_cons.mpr ⟨fun c hc => had ▸ hd.1 c hc, hd.2⟩
        · rename_i h1 h2
          refine List.pairwise_cons.mpr ⟨fun c hc => ?_, ih (Memory.wf_tail h)⟩
          rcases Memory.mem_write hc with ⟨rfl, -, -⟩ | hc
          · omega
          · exact hd.1 c hc
  · rcases Memory.mem_write hc with ⟨rfl, rfl, hv⟩ | hc
    · exact ⟨ha, hv⟩
    · exact h.2 c hc

/-- A store keeps the canonical form: an address is a 16-bit word. -/
theorem memWrite_wf {s : State} (h : s.mem.wf) (a v : Word) : (s.memWrite a v).mem.wf := Memory.write_wf h a.isLt v

/-- Reading a state after a store. -/
theorem memRead_memWrite {s : State} (h : s.mem.wf) (a b v : Word) :
    (s.memWrite a v).memRead b = if b = a then v else s.memRead b := by
  simp only [State.memRead, State.memWrite, Memory.read_write h, BitVec.toNat_inj]

/-- Reading a state at another address than the one stored to. -/
theorem memRead_memWrite_other (s : State) {a b : Word} (h : b ≠ a) (v : Word) :
    (s.memWrite a v).memRead b = s.memRead b :=
  Memory.read_write_other s.mem (fun e => h (BitVec.eq_of_toNat_eq e)) v

/-- The Loader's writes keep the canonical form while they stay in the address space. -/
theorem Memory.writeWords_wf {m : Memory} (h : m.wf) {a : Nat} {ws : List Word} (ha : a + ws.length ≤ 65536) :
    (m.writeWords a ws).wf := by
  induction ws generalizing m a with
  | nil => exact h
  | cons w ws ih =>
    simp only [List.length_cons] at ha
    exact ih (Memory.write_wf h (by omega) w) (by omega)

/-- A loaded memory is canonical. -/
theorem load_wf {origin : Word} {words : List Word} {m : Memory} (h : load [] origin words = .ok m) : m.wf := by
  simp only [load] at h
  split at h
  · cases h
  · split at h
    · cases h
    · cases h
      rename_i h1 h2
      have : 0 < words.length := List.length_pos_iff.mpr h1
      exact Memory.writeWords_wf Memory.wf_nil (by omega)

/-- After reset memory is canonical. -/
theorem reset_mem_wf : State.reset.mem.wf := Memory.wf_nil

end Sys2Proof.Machine
end

