-- ==== Sys2Proof/Laws/Step.lean ====
section
/-! SUPPORT. What a step can be: one inversion lemma. -/

namespace Sys2Proof.Machine

/-- A step that answers a next state ran an instruction or tried a waiting read again. -/
theorem step_next {s t : State} (h : step s = .next t) :
    s.run = .running ∧
      ((s.wait = none ∧ exec (decode (s.memRead s.pc)) s.advance = .next t) ∨
        ∃ svc, s.wait = some svc ∧ s.resume svc = t) := by
  unfold step at h
  cases hr : s.run <;> simp only [State.stopped, hr, reduceCtorEq] at h
  refine ⟨rfl, ?_⟩
  cases hw : s.wait <;> rw [hw] at h
  · exact .inl ⟨rfl, h⟩
  · exact .inr ⟨_, rfl, Host.Outcome.next.inj h⟩

/-- A step of a state that fetches. -/
theorem step_fetches {s : State} (h : s.fetches) : step s = exec (decode (s.memRead s.pc)) s.advance := by
  simp only [step, State.stopped, h.1, h.2, State.fetchWord]

/-- A step of a state that waits. -/
theorem step_waits {s : State} {svc : Service} (hr : s.run = .running) (hw : s.wait = some svc) :
    step s = .next (s.resume svc) := by
  simp only [step, State.stopped, hr, hw]

/-- A halted machine has no next state. -/
theorem step_halted {s : State} (h : s.run = .halted) : step s = .fault .halted := by
  simp only [step, State.stopped, h]

/-- A faulted machine has no next state. -/
theorem step_faulted {s : State} {reason : FaultReason} (h : s.run = .faulted reason) :
    step s = .fault (.faulted reason) := by
  simp only [step, State.stopped, h]

end Sys2Proof.Machine
end

