-- ==== Sys2Proof/Laws/Trap.lean ====
section
/-! SUPPORT. What each trap service can do: one inversion lemma for each, cited instead of unfolding it. -/

namespace Sys2Proof.Machine

/-- TRAP is the service of its vector, or the unknown-vector fault. -/
theorem execTrap_cases (v : BitVec 8) (s : State) :
    (v.toNat = 0x20 ∧ execTrap v s = execGetc s) ∨ (v.toNat = 0x21 ∧ execTrap v s = execOut s) ∨
    (v.toNat = 0x22 ∧ execTrap v s = execPuts s) ∨ (v.toNat = 0x23 ∧ execTrap v s = execIn s) ∨
    (v.toNat = 0x24 ∧ execTrap v s = execPutsp s) ∨ (v.toNat = 0x25 ∧ execTrap v s = execHalt s) ∨
    ((v.toNat < 0x20 ∨ 0x25 < v.toNat) ∧ execTrap v s = .next (s.raiseFault (.trapError (.unknownVector v)))) := by
  unfold execTrap
  split <;> simp_all
  omega

/-- GETC waits, stores the byte in R0, or faults. -/
theorem getcRead_cases (s : State) :
    (s.consoleIn = [] ∧ s.getcRead = { s with wait := some .getc }) ∨
    (∃ b rest, s.consoleIn = .byte b :: rest ∧
      s.getcRead = { s with regs := s.regs.set 0 (zext b), consoleIn := rest, wait := none }) ∨
    ∃ rest, s.consoleIn = .failed :: rest ∧
      s.getcRead = { s with consoleIn := rest, wait := none, run := .faulted (.trapError .io) } :=
  consoleRead_cases s .getc _

/-- IN, from its read on, waits, echoes the byte and stores it in R0, or faults with R0 and the output unchanged. -/
theorem inRead_cases (s : State) :
    (s.consoleIn = [] ∧ s.inRead = { s with wait := some .inp }) ∨
    (∃ b rest, s.consoleIn = .byte b :: rest ∧ s.acceptsWrites 1 ∧
      s.inRead = { s.wrote [b] with regs := s.regs.set 0 (zext b), consoleIn := rest, wait := none }) ∨
    ∃ r rest, s.consoleIn = r :: rest ∧ (r = .failed ∨ s.writesUntilFail = some 0) ∧
      s.inRead = { s with consoleIn := rest, wait := none, run := .faulted (.trapError .io) } := by
  rcases consoleRead_cases s .inp (fun t b => (t.consoleWrite b).andThen (fun u => u.setReg 0 (zext b))) with
    h | ⟨b, rest, h1, h2⟩ | ⟨rest, h1, h2⟩
  · exact .inl h
  · rcases consoleWrite_cases { s with consoleIn := rest, wait := none } b with ⟨ha, hb⟩ | ⟨h0, hb⟩
    · exact .inr (.inl ⟨b, rest, h1, ha, by unfold State.inRead; rw [h2, hb]; rfl⟩)
    · exact .inr (.inr ⟨_, rest, h1, .inr h0, by unfold State.inRead; rw [h2, hb]; rfl⟩)
  · exact .inr (.inr ⟨_, rest, h1, .inl rfl, h2⟩)

/-- OUT writes the low byte of R0, or faults. -/
theorem execOut_cases (s : State) :
    (s.acceptsWrites 1 ∧ execOut s = .next (s.wrote [lowByte (s.getReg 0)])) ∨
    (s.writesUntilFail = some 0 ∧ execOut s = .next s.ioFault) := by
  rcases consoleWrite_cases s (lowByte (s.getReg 0)) with ⟨ha, hw⟩ | ⟨h0, hw⟩
  · exact .inl ⟨ha, by simp only [execOut, hw, Written.andThen, id]⟩
  · exact .inr ⟨h0, by simp only [execOut, hw, Written.andThen]⟩

/-- IN writes its prompt and goes on to its read, or faults after the prompt bytes the console accepts, before it reads. -/
theorem inWith_cases (s : State) (prompt : List Byte) :
    (s.acceptsWrites prompt.length ∧ s.inWith prompt = (s.wrote prompt).inRead) ∨
    ∃ k, s.writesUntilFail = some k ∧ k < prompt.length ∧ s.inWith prompt = (s.wrote (prompt.take k)).ioFault := by
  rcases consoleWriteAll_cases s prompt with ⟨ha, hw⟩ | ⟨k, hk, hlt, hw⟩
  · exact .inl ⟨ha, by simp only [State.inWith, hw, Written.andThen]⟩
  · exact .inr ⟨k, hk, hlt, by simp only [State.inWith, hw, Written.andThen]⟩

/-- `inWith_cases` for the meaning of IN. -/
theorem execIn_cases (s : State) :
    (s.acceptsWrites inPrompt.length ∧ execIn s = .next (s.wrote inPrompt).inRead) ∨
    ∃ k, s.writesUntilFail = some k ∧ k < inPrompt.length ∧ execIn s = .next (s.wrote (inPrompt.take k)).ioFault := by
  rcases inWith_cases s inPrompt with ⟨ha, h⟩ | ⟨k, hk, hlt, h⟩
  · exact .inl ⟨ha, congrArg Host.Outcome.next h⟩
  · exact .inr ⟨k, hk, hlt, congrArg Host.Outcome.next h⟩

/-- HALT writes its message and stops the machine, or faults after the bytes the console accepts. -/
theorem execHalt_cases (s : State) :
    (s.acceptsWrites haltMessage.length ∧ execHalt s = .next (s.wrote haltMessage).halt) ∨
    ∃ k, s.writesUntilFail = some k ∧ k < haltMessage.length ∧
      execHalt s = .next (s.wrote (haltMessage.take k)).ioFault := by
  rcases consoleWriteAll_cases s haltMessage with ⟨ha, hw⟩ | ⟨k, hk, hlt, hw⟩
  · exact .inl ⟨ha, by simp only [execHalt, hw, Written.andThen]⟩
  · exact .inr ⟨k, hk, hlt, by simp only [execHalt, hw, Written.andThen]⟩

/-- A service that has not completed goes on with its read, or its next turn. -/
@[simp] theorem resume_getc (s : State) : s.resume .getc = s.getcRead := rfl
@[simp] theorem resume_inp (s : State) : s.resume .inp = s.inRead := rfl
@[simp] theorem resume_puts (s : State) : s.resume .puts = s.putsTurn := rfl
@[simp] theorem resume_putsp (s : State) : s.resume .putsp = s.putspTurn := rfl

/-- What PUTS and PUTSP can do, from their TRAP or from a turn before. -/
theorem putsTurn_cases (s : State) : ∃ bs,
    s.putsTurn = { s.wrote bs with wait := none } ∨
    s.putsTurn = { s.wrote bs with wait := none, run := .faulted (.trapError .io) } ∨
    s.putsTurn = { s.wrote bs with wait := some .puts } := writeString_cases s .puts putsBytes

theorem putspTurn_cases (s : State) : ∃ bs,
    s.putspTurn = { s.wrote bs with wait := none } ∨
    s.putspTurn = { s.wrote bs with wait := none, run := .faulted (.trapError .io) } ∨
    s.putspTurn = { s.wrote bs with wait := some .putsp } := writeString_cases s .putsp putspBytes

end Sys2Proof.Machine
end

