-- ==== Sys2Proof/Tests/Slice0.lean ====
section
/-! SUPPORT. The model's own tests. Expected results are the spec's: formats of 30_encoding.md R62 and vectors L1 to V97 of
95_test_vectors.md. Then, for each statement with hypotheses, a state that meets them. -/

namespace Sys2Proof.Tests

open Sys2Proof.Machine

/-! ### Well-formedness refuses -/

theorem test_wellFormed_refuses_jmp_r7 : Instr.wellFormed (.jmp 7) = false := by decide
theorem test_wellFormed_refuses_trap_first_service : Instr.wellFormed (.trap 0x20) = false := by decide
theorem test_wellFormed_refuses_trap_last_service : Instr.wellFormed (.trap 0x25) = false := by decide
theorem test_wellFormed_accepts_its_neighbours :
    Instr.wellFormed (.jmp 6) ∧ Instr.wellFormed (.trap 0x1F) ∧ Instr.wellFormed (.trap 0x26) := by decide

/-! ### Decoding: one word for each constructor, its bits as R62 lays them out -/

theorem test_decode_br : decode (0b0000#4 ++ 0b101#3 ++ 0b111111110#9) = .br true false true (-2) := by decide
theorem test_decode_addReg : decode (0b0001#4 ++ 0b000#3 ++ 0b001#3 ++ 0b0#1 ++ 0b11#2 ++ 0b010#3) = .addReg 0 1 2 := by
  decide
theorem test_decode_addImm : decode (0b0001#4 ++ 0b010#3 ++ 0b011#3 ++ 0b1#1 ++ 0b11111#5) = .addImm 2 3 (-1) := by
  decide
theorem test_decode_ld : decode (0b0010#4 ++ 0b010#3 ++ 0b000000101#9) = .ld 2 5 := by decide
theorem test_decode_st : decode (0b0011#4 ++ 0b100#3 ++ 0b000000001#9) = .st 4 1 := by decide
theorem test_decode_jsr : decode (0b0100#4 ++ 0b1#1 ++ 0b00000010000#11) = .jsr 16 := by decide
theorem test_decode_jsrr : decode (0b0100#4 ++ 0b0#1 ++ 0b11#2 ++ 0b100#3 ++ 0b111111#6) = .jsrr 4 := by decide
theorem test_decode_andReg : decode (0b0101#4 ++ 0b011#3 ++ 0b001#3 ++ 0b0#1 ++ 0b00#2 ++ 0b010#3) = .andReg 3 1 2 := by
  decide
theorem test_decode_andImm : decode (0b0101#4 ++ 0b011#3 ++ 0b001#3 ++ 0b1#1 ++ 0b10000#5) = .andImm 3 1 (-16) := by
  decide
theorem test_decode_ldr : decode (0b0110#4 ++ 0b001#3 ++ 0b110#3 ++ 0b111111#6) = .ldr 1 6 (-1) := by decide
theorem test_decode_str : decode (0b0111#4 ++ 0b010#3 ++ 0b011#3 ++ 0b011111#6) = .str 2 3 31 := by decide
theorem test_decode_rti : decode (0b1000#4 ++ 0b111111111111#12) = .rti := by decide
theorem test_decode_not : decode (0b1001#4 ++ 0b100#3 ++ 0b101#3 ++ 0b000000#6) = .not 4 5 := by decide
theorem test_decode_ldi : decode (0b1010#4 ++ 0b000#3 ++ 0b000000010#9) = .ldi 0 2 := by decide
theorem test_decode_sti : decode (0b1011#4 ++ 0b101#3 ++ 0b111111111#9) = .sti 5 (-1) := by decide
theorem test_decode_jmp : decode (0b1100#4 ++ 0b111#3 ++ 0b011#3 ++ 0b000000#6) = .jmp 3 := by decide
theorem test_decode_reserved : decode (0b1101#4 ++ 0b000000000001#12) = .reserved := by decide
theorem test_decode_lea : decode (0b1110#4 ++ 0b011#3 ++ 0b111111101#9) = .lea 3 (-3) := by decide
theorem test_decode_trap : decode (0b1111#4 ++ 0b0000#4 ++ 0b00100110#8) = .trap 0x26 := by decide
theorem test_decode_ret : decode (0b1100#4 ++ 0b000#3 ++ 0b111#3 ++ 0b000000#6) = .ret := by decide
theorem test_decode_getc : decode (0b1111#4 ++ 0b0000#4 ++ 0b00100000#8) = .getc := by decide
theorem test_decode_out : decode (0b1111#4 ++ 0b0000#4 ++ 0b00100001#8) = .out := by decide
theorem test_decode_puts : decode (0b1111#4 ++ 0b0000#4 ++ 0b00100010#8) = .puts := by decide
theorem test_decode_inp : decode (0b1111#4 ++ 0b0000#4 ++ 0b00100011#8) = .inp := by decide
theorem test_decode_putsp : decode (0b1111#4 ++ 0b0000#4 ++ 0b00100100#8) = .putsp := by decide
theorem test_decode_halt : decode (0b1111#4 ++ 0b0001#4 ++ 0b00100101#8) = .halt := by decide

/-- The encoder writes the standard words of the vectors V18, V57, V60 and V63. -/
theorem test_encode_standard_words :
    encode (.not 4 5) = 0x997F ∧ encode .ret = 0xC1C0 ∧ encode (.jsr 16) = 0x4810 ∧ encode (.jsrr 4) = 0x4100 := by
  decide

/-! ### One step of each instruction, from 95_test_vectors.md -/

/-- A Running state at `pc`, cc = Z, memory holding `mem` alone, registers `regs` and 0x0000 elsewhere. -/
def at_ (pc : Word) (regs : List (Reg × Word)) (mem : List (Word × Word)) : State :=
  mem.foldl (fun s c => s.memWrite c.1 c.2)
    (regs.foldl (fun s c => s.setReg c.1 c.2) { State.reset with pc := pc, cc := .Z })

/-- The next state's view, if there is a next state. -/
def view {α : Type} (f : State → α) : Result → Option α
  | .next s => some (f s)
  | .fault _ => none
  | .refused _ => none

/-- One register, the pc and cc. -/
def regView (r : Reg) (s : State) : Word × Word × CC := (s.getReg r, s.pc, s.cc)

/-- The pc, the run state and the output. -/
def runView (s : State) : Word × RunState × List Byte := (s.pc, s.run, s.consoleOut)

theorem test_add_register_V1 :
    view (regView 0) (step (at_ 0x3000 [(1, 2), (2, 3)] [(0x3000, 0x1042)])) = some (5, 0x3001, .P) := by decide
theorem test_add_register_overflow_V2 :
    view (regView 0) (step (at_ 0x3000 [(1, 0x7FFF), (2, 1)] [(0x3000, 0x1042)])) = some (0x8000, 0x3001, .N) := by decide
theorem test_add_immediate_min_V7 :
    view (regView 1) (step (at_ 0x3000 [(1, 0x0010)] [(0x3000, 0x1270)])) = some (0, 0x3001, .Z) := by decide
theorem test_add_immediate_wrap_V9 :
    view (regView 0) (step (at_ 0x3000 [(0, 0x8000)] [(0x3000, 0x103F)])) = some (0x7FFF, 0x3001, .P) := by decide
theorem test_and_register_V12 :
    view (regView 3) (step (at_ 0x3000 [(1, 0x8001), (2, 0x8000)] [(0x3000, 0x5642)])) = some (0x8000, 0x3001, .N) := by
  decide
theorem test_and_immediate_sign_V16 :
    view (regView 3) (step (at_ 0x3000 [(1, 0x1234)] [(0x3000, 0x5670)])) = some (0x1230, 0x3001, .P) := by decide
theorem test_not_in_place_V20 :
    view (regView 1) (step (at_ 0x3000 [(1, 0x00FF)] [(0x3000, 0x9240)])) = some (0xFF00, 0x3001, .N) := by decide
theorem test_ld_min_V22 :
    view (regView 2) (step (at_ 0x3000 [(2, 0x5555)] [(0x3000, 0x2500)])) = some (0, 0x3001, .Z) := by decide
theorem test_ld_at_top_V25 :
    view (regView 0) (step (at_ 0xFFFF [] [(0xFFFF, 0x20FF), (0x00FF, 0x0042)])) = some (0x0042, 0x0000, .P) := by decide
theorem test_ldi_own_word_V27 :
    view (regView 0) (step (at_ 0x3000 [] [(0x3000, 0xA1FF), (0xA1FF, 0x7FFF)])) = some (0x7FFF, 0x3001, .P) := by decide
theorem test_ldi_cc_from_operand_V28 :
    view (regView 0) (step (at_ 0x3000 [(0, 0x5555)] [(0x3000, 0xA001), (0x3002, 0x8000)])) = some (0, 0x3001, .Z) := by
  decide
theorem test_ldr_dr_is_base_V30 :
    view (regView 1) (step (at_ 0x3000 [(1, 0x5000)] [(0x3000, 0x6240), (0x5000, 0x9999)])) =
      some (0x9999, 0x3001, .N) := by decide
theorem test_ldr_wraps_V31 :
    view (regView 1) (step (at_ 0x3000 [(6, 0xFFFF)] [(0x3000, 0x6381), (0x0000, 0x0001)])) =
      some (0x0001, 0x3001, .P) := by decide
theorem test_lea_V34 : view (regView 3) (step (at_ 0x3000 [] [(0x3000, 0xE7FD)])) = some (0x2FFE, 0x3001, .P) := by decide
theorem test_lea_at_top_V35 :
    view (regView 0) (step (at_ 0xFFFF [] [(0xFFFF, 0xE1FF)])) = some (0xFFFF, 0x0000, .N) := by decide
theorem test_st_own_word_V39 :
    view (fun s => (s.memRead 0x3000, s.pc, s.cc)) (step (at_ 0x3000 [(4, 0x1234)] [(0x3000, 0x39FF)])) =
      some (0x1234, 0x3001, .Z) := by decide
theorem test_sti_own_pointer_V40 :
    view (fun s => (s.memRead 0xBBFF, s.memRead 0x3000, s.pc)) (step (at_ 0x3000 [(5, 7)] [(0x3000, 0xBBFF)])) =
      some (7, 0xBBFF, 0x3001) := by decide
theorem test_str_wraps_V42 :
    view (fun s => (s.memRead 0x000F, s.pc)) (step (at_ 0x3000 [(2, 0xBEEF), (3, 0xFFF0)] [(0x3000, 0x74DF)])) =
      some (0xBEEF, 0x3001) := by decide
theorem test_str_min_V44 :
    view (fun s => (s.memRead 0xFFF0, s.pc)) (step (at_ 0x3000 [(0, 1), (1, 0x0010)] [(0x3000, 0x7060)])) =
      some (1, 0x3001) := by decide
theorem test_br_not_taken_V49 : view State.pc (step (at_ 0x3000 [] [(0x3000, 0x0BFE)])) = some 0x3001 := by decide
theorem test_br_wraps_V55 :
    view State.pc (step { at_ 0xFF80 [] [(0xFF80, 0x0EFF)] with cc := .P }) = some 0x0080 := by decide
theorem test_jmp_V56 : view State.pc (step (at_ 0x3000 [(3, 0x4000)] [(0x3000, 0xC0C0)])) = some 0x4000 := by decide
theorem test_ret_V58 : view State.pc (step (at_ 0x3000 [(7, 0x1111)] [(0x3000, 0xC1FF)])) = some 0x1111 := by decide
theorem test_jsr_min_V61 :
    view (regView 7) (step (at_ 0x3000 [] [(0x3000, 0x4C00)])) = some (0x3001, 0x2C01, .Z) := by decide
theorem test_jsr_at_top_V65 :
    view (regView 7) (step (at_ 0xFFFF [] [(0xFFFF, 0x4800)])) = some (0x0000, 0x0000, .Z) := by decide
theorem test_jsrr_r7_V64 :
    view (regView 7) (step (at_ 0x3000 [(7, 0x6000)] [(0x3000, 0x41C0)])) = some (0x3001, 0x6000, .Z) := by decide
theorem test_rti_V67 :
    view runView (step (at_ 0x3000 [] [(0x3000, 0x8FFF)])) = some (0x3001, .faulted (.invalidOpcode .rti), []) := by decide
theorem test_reserved_V69 :
    view runView (step (at_ 0x3000 [] [(0x3000, 0xDFFF)])) = some (0x3001, .faulted (.invalidOpcode .reserved), []) := by
  decide
theorem test_getc_V70 :
    view (regView 0) (step { at_ 0x3000 [(0, 0xFFFF)] [(0x3000, 0xF020)] with consoleIn := [.byte 0x61] }) =
      some (0x0061, 0x3001, .Z) := by decide
theorem test_getc_end_of_input_V71 :
    view (fun s => (s.getReg 0, s.pc, s.run))
      (step { at_ 0x3000 [(0, 0xFFFF)] [(0x3000, 0xF020)] with consoleIn := [.failed] }) =
      some (0xFFFF, 0x3001, .faulted (.trapError .io)) := by decide
theorem test_out_low_byte_V72 :
    view runView (step (at_ 0x3000 [(0, 0x1241)] [(0x3000, 0xF021)])) = some (0x3001, .running, [0x41]) := by decide
theorem test_out_refused_V88 :
    view runView (step { at_ 0x3000 [(0, 0x0041)] [(0x3000, 0xF021)] with writesUntilFail := some 0 }) =
      some (0x3001, .faulted (.trapError .io), []) := by decide
theorem test_puts_whole_word_ends_V76 :
    view runView (step (at_ 0x3000 [(0, 0x4000)] [(0x3000, 0xF022), (0x4000, 0x0141), (0x4001, 0x0100)])) =
      some (0x3001, .running, [0x41, 0x00]) := by decide
theorem test_puts_refused_V89 :
    view runView (step { at_ 0x3000 [(0, 0x4000)] [(0x3000, 0xF022), (0x4000, 0x0048), (0x4001, 0x0069)] with
      writesUntilFail := some 1 }) = some (0x3001, .faulted (.trapError .io), [0x48]) := by decide
theorem test_putsp_V80 :
    view runView (step (at_ 0x3000 [(0, 0x4000)] [(0x3000, 0xF024), (0x4000, 0x6948), (0x4001, 0x0021)])) =
      some (0x3001, .running, [0x48, 0x69, 0x21]) := by decide
theorem test_putsp_zero_low_byte_V81 :
    view runView (step (at_ 0x3000 [(0, 0x4000)] [(0x3000, 0xF024), (0x4000, 0x4100)])) =
      some (0x3001, .running, [0x00, 0x41]) := by decide
theorem test_halt_V82 :
    view runView (step (at_ 0x3005 [] [(0x3005, 0xF025)])) = some (0x3006, .halted, []) := by decide
theorem test_trap_unknown_V84 :
    view runView (step (at_ 0x3000 [] [(0x3000, 0xF026)])) =
      some (0x3001, .faulted (.trapError (.unknownVector 0x26)), []) := by decide
theorem test_trap_unknown_V86 :
    view runView (step (at_ 0x3000 [] [(0x3000, 0xF01F)])) =
      some (0x3001, .faulted (.trapError (.unknownVector 0x1F)), []) := by decide

/-- V78, for every prompt: prompt and echo written, the byte in R0. -/
theorem test_in_V78 :
    view (fun s => (s.getReg 0, s.pc, s.consoleOut))
      (step { at_ 0x3000 [] [(0x3000, 0xF023)] with consoleIn := [.byte 0x37] }) =
      some (0x0037, 0x3001, inPrompt ++ [0x37]) := by
  have hf : ({ at_ 0x3000 [] [(0x3000, 0xF023)] with consoleIn := [.byte 0x37] } : State).fetches := by decide
  have hd : decode (State.memRead { at_ 0x3000 [] [(0x3000, 0xF023)] with consoleIn := [.byte 0x37] }
      (State.pc { at_ 0x3000 [] [(0x3000, 0xF023)] with consoleIn := [.byte 0x37] })) = .inp := by decide
  rw [step_fetches hf, hd]
  rcases execIn_cases (State.advance { at_ 0x3000 [] [(0x3000, 0xF023)] with consoleIn := [.byte 0x37] }) with
    ⟨-, h⟩ | ⟨k, hk, -, -⟩
  · show view _ (execIn _) = _
    rw [h]
    rfl
  · cases hk

/-- The word of a step at reset runs first: the host's two questions on one row. -/
theorem test_withFetchWord_runs_first :
    decodeTableWord 16 0x103F = some (.addImm 0 0 (-1)) ∧
    view (regView 0) (step (State.reset.withFetchWord 16 0x103F)) = some (0xFFFF, 0x3001, .N) := by decide

/-! ### The Loader -/

/-- The parameters of the vectors: registers 0x0000, cc = Z, no reply, no failing write. -/
def plainLaunch : Launch :=
  { gprReset := Vector.replicate 8 0, ccReset := .Z, consoleIn := [], writesUntilFail := none }

/-- What a load leaves: an error, or the pc and two words. -/
def loadView (a b : Word) : Except LoadError State → Option (Word × Word × Word)
  | .ok s => some (s.pc, s.memRead a, s.memRead b)
  | .error _ => none

theorem test_load_L1 :
    loadView 0x3000 0x3001 (bootImage plainLaunch [0x30, 0x00, 0x00, 0x01, 0x00, 0x02]) = some (0x3000, 1, 2) := by decide
theorem test_load_ends_at_top_L2 :
    loadView 0xFFFF 0x0000 (bootImage plainLaunch [0xFF, 0xFF, 0x12, 0x34]) = some (0xFFFF, 0x1234, 0) := by decide
theorem test_load_past_top_L3 :
    loadView 0 0 (bootImage plainLaunch [0xFF, 0xFF, 0x12, 0x34, 0x56, 0x78]) = none := by decide
theorem test_load_empty_L6 : loadView 0 0 (bootImage plainLaunch [0x30, 0x00]) = none := by decide
theorem test_load_odd_L8 : loadView 0 0 (bootImage plainLaunch [0x30, 0x00, 0x00, 0x01, 0x00]) = none := by decide

/-! ### Witnesses: states that meet the hypotheses of the statements -/

theorem witness_DecodeOfEncodeGivesBack :
    Instr.wellFormed (.jmp 6) ∧ Instr.wellFormed (.trap 0x1F) ∧ Instr.wellFormed (.trap 0x26) ∧
      Instr.wellFormed (.br true true true (-256)) := by decide

theorem witness_UnusedBitsHaveNoEffect : (0x903F : Word) &&& usedBits (decode 0x9000) = 0x9000 &&& usedBits (decode 0x9000) := by
  decide

theorem witness_StepRunsTheDecodedInstruction : State.reset.fetches := by decide

/-- An image boots; a halted and a faulted state exist. -/
theorem witness_RunStateIsTerminalAndUnreadable :
    (∃ s, boot plainLaunch 0xFFFF [0xF025] = .ok s) ∧ State.reset.halt.run = .halted ∧
      (State.reset.raiseFault (.trapError .io)).run = .faulted (.trapError .io) := ⟨⟨_, rfl⟩, rfl, rfl⟩

/-- A step that faults, and one that faults out of a wait. -/
theorem witness_FaultsEndTheRunAndArePrecise :
    (∃ t, (at_ 0x3000 [] [(0x3000, 0xD000)]).fetches ∧ step (at_ 0x3000 [] [(0x3000, 0xD000)]) = .next t ∧
      t.run = .faulted (.invalidOpcode .reserved)) ∧
    ∃ t, step { State.reset with wait := some .getc, consoleIn := [.failed] } = .next t ∧
      t.run = .faulted (.trapError .io) := ⟨⟨_, by decide, rfl, rfl⟩, ⟨_, rfl, rfl⟩⟩

/-- A state that fetches the word `w`. -/
abbrev fetchesWord (w : Word) : Prop :=
  (at_ 0x3000 [] [(0x3000, w)]).mem.wf ∧ (at_ 0x3000 [] [(0x3000, w)]).fetches ∧
    (at_ 0x3000 [] [(0x3000, w)]).memRead 0x3000 = w

theorem witness_RtiAndReservedWordsFault :
    fetchesWord 0x8FFF ∧ (0x8FFF : Word) &&& 0xF000 = 0x8000 ∧ fetchesWord 0xDFFF ∧
      (0xDFFF : Word) &&& 0xF000 = 0xD000 := by decide

theorem witness_StepAtOperateWords :
    fetchesWord 0x1FDF ∧ (0x1FDF : Word) &&& 0xF020 = 0x1000 ∧ fetchesWord 0x1FFF ∧ (0x1FFF : Word) &&& 0xF020 = 0x1020 ∧
    fetchesWord 0x5FDF ∧ (0x5FDF : Word) &&& 0xF020 = 0x5000 ∧ fetchesWord 0x5FFF ∧ (0x5FFF : Word) &&& 0xF020 = 0x5020 ∧
    fetchesWord 0x9FFF ∧ (0x9FFF : Word) &&& 0xF000 = 0x9000 := by decide

theorem witness_StepAtLoadWords :
    fetchesWord 0x2FFF ∧ (0x2FFF : Word) &&& 0xF000 = 0x2000 ∧ fetchesWord 0xAFFF ∧ (0xAFFF : Word) &&& 0xF000 = 0xA000 ∧
    fetchesWord 0x6FFF ∧ (0x6FFF : Word) &&& 0xF000 = 0x6000 ∧ fetchesWord 0xEFFF ∧ (0xEFFF : Word) &&& 0xF000 = 0xE000 := by
  decide

theorem witness_StepAtStoreWords :
    fetchesWord 0x3FFF ∧ (0x3FFF : Word) &&& 0xF000 = 0x3000 ∧ fetchesWord 0xBFFF ∧ (0xBFFF : Word) &&& 0xF000 = 0xB000 ∧
    fetchesWord 0x7FFF ∧ (0x7FFF : Word) &&& 0xF000 = 0x7000 := by decide

/-- cc = Z: BRz is taken, BRnp is not. -/
theorem witness_StepAtBranchWords :
    fetchesWord 0x0404 ∧ (0x0404 : Word) &&& 0xF000 = 0 ∧ (0x0404 : Word).getLsbD 10 = true ∧
    fetchesWord 0x0BFE ∧ (0x0BFE : Word) &&& 0xF000 = 0 ∧ (0x0BFE : Word).getLsbD 10 = false ∧
    (at_ 0x3000 [] [(0x3000, 0x0404)]).cc = .Z := by decide

theorem witness_StepAtJumpAndCallWords :
    fetchesWord 0xCFFF ∧ (0xCFFF : Word) &&& 0xF000 = 0xC000 ∧ fetchesWord 0x4FFF ∧ (0x4FFF : Word) &&& 0xF800 = 0x4800 ∧
    fetchesWord 0x47FF ∧ (0x47FF : Word) &&& 0xF800 = 0x4000 := by decide

theorem witness_StepAtTrapWords :
    fetchesWord 0xFF20 ∧ (0xFF20 : Word) &&& 0xF0FF = 0xF020 ∧ fetchesWord 0xF021 ∧ fetchesWord 0xF022 ∧ fetchesWord 0xF023 ∧
    fetchesWord 0xF024 ∧ fetchesWord 0xFF25 ∧ (0xFF25 : Word) &&& 0xF0FF = 0xF025 ∧
    fetchesWord 0xF01F ∧ (0x1F : BitVec 8) < 0x20 ∧ fetchesWord 0xF026 ∧ 0x25 < (0x26 : BitVec 8) := by decide

theorem witness_StoresCompleteAndWriteOneWord : (at_ 0x3000 [] [(0xFFFF, 1), (0, 2)]).mem.wf := by decide

theorem witness_GetcReadsOneByte :
    (∃ s : State, s.consoleIn = .byte 0xFF :: []) ∧ (∃ s : State, s.consoleIn = .failed :: []) ∧
      State.reset.consoleIn = [] := ⟨⟨{ State.reset with consoleIn := [.byte 0xFF] }, rfl⟩,
        ⟨{ State.reset with consoleIn := [.failed] }, rfl⟩, rfl⟩

/-- A console that never fails accepts any number of writes; one about to fail exists. -/
theorem witness_OutWritesTheLowByte :
    State.reset.acceptsWrites 1 ∧ ({ State.reset with writesUntilFail := some 1 } : State).acceptsWrites 1 ∧
      ({ State.reset with writesUntilFail := some 0 } : State).writesUntilFail = some 0 := by
  refine ⟨fun k h => ?_, fun k h => ?_, rfl⟩
  · cases h
  · cases h; exact le_rfl

theorem witness_InPromptsReadsAndEchoes :
    ({ State.reset with consoleIn := [.byte 0x37] } : State).consoleIn = .byte 0x37 :: [] ∧
      ({ State.reset with consoleIn := [.byte 0x37] } : State).acceptsWrites (inPrompt.length + 1) :=
  ⟨rfl, fun k h => by cases h⟩

/-- For a prompt of two bytes: its first byte refused with no reply yet, its last with a failed reply waiting, the echo
refused, no reply, and a failed read. -/
theorem witness_InFailsAtItsFirstFailingCall :
    (∃ s : State, s.writesUntilFail = some 0 ∧ 0 < ([0x3E, 0x20] : List Byte).length ∧ s.consoleIn = []) ∧
    (∃ s : State, s.writesUntilFail = some 1 ∧ 1 < ([0x3E, 0x20] : List Byte).length ∧ s.consoleIn = .failed :: []) ∧
    (∃ s : State, s.writesUntilFail = some ([0x3E, 0x20] : List Byte).length ∧ s.consoleIn = .byte 0x37 :: []) ∧
    (State.reset.acceptsWrites ([0x3E, 0x20] : List Byte).length ∧ State.reset.consoleIn = []) ∧
    ∃ s : State, s.acceptsWrites ([0x3E, 0x20] : List Byte).length ∧ s.consoleIn = .failed :: [] :=
  ⟨⟨{ State.reset with writesUntilFail := some 0 }, rfl, by decide, rfl⟩,
    ⟨{ State.reset with writesUntilFail := some 1, consoleIn := [.failed] }, rfl, by decide, rfl⟩,
    ⟨{ State.reset with writesUntilFail := some 2, consoleIn := [.byte 0x37] }, rfl, rfl⟩,
    ⟨fun k h => (by cases h), rfl⟩,
    ⟨{ State.reset with consoleIn := [.failed] }, fun k h => (by cases h), rfl⟩⟩

/-- The string of V77 wraps from 0xFFFF to 0x0000; the empty string has length 0. -/
theorem witness_PutsWritesTheString :
    (∀ i < 2, (at_ 0x3000 [(0, 0xFFFF)] [(0xFFFF, 0x0041), (0, 0x0042)]).memRead (0xFFFF + BitVec.ofNat 16 i) ≠ 0) ∧
    (at_ 0x3000 [(0, 0xFFFF)] [(0xFFFF, 0x0041), (0, 0x0042)]).memRead (0xFFFF + BitVec.ofNat 16 2) = 0 ∧
    (at_ 0x3000 [(0, 0xFFFF)] [(0xFFFF, 0x0041), (0, 0x0042)]).writesUntilFail = none ∧
    State.reset.memRead (State.reset.getReg 0 + BitVec.ofNat 16 0) = 0 := by decide

/-- The packed string of V80: bytes [7:0] and [15:8], the last word with a zero high byte. -/
theorem witness_PutspWritesThePackedString :
    (∀ i < 2, (at_ 0x3000 [(0, 0x4000)] [(0x4000, 0x6948), (0x4001, 0x0021)]).memRead (0x4000 + BitVec.ofNat 16 i) ≠ 0) ∧
    (at_ 0x3000 [(0, 0x4000)] [(0x4000, 0x6948), (0x4001, 0x0021)]).memRead (0x4000 + BitVec.ofNat 16 2) = 0 ∧
    (at_ 0x3000 [(0, 0x4000)] [(0x4000, 0x6948), (0x4001, 0x0021)]).writesUntilFail = none := by decide

/-- The packed bytes of word `i` of the string at `a`. -/
def packedAt (s : State) (a : Word) (i : Nat) : List Byte :=
  let w := s.memRead (a + BitVec.ofNat 16 i)
  lowByte w :: if highByte w = 0 then [] else [highByte w]

/-- V89 refused at its second write: k = m = 1 for PUTS. V80's packed string refused at its second byte, which word 0 gives:
k = 1 and m = 0 for PUTSP, at both ends of its range. -/
theorem witness_StringFailureKeepsTheBytesWritten :
    (({ at_ 0x3000 [(0, 0x4000)] [(0x4000, 0x0048), (0x4001, 0x0069)] with writesUntilFail := some 1 } : State).writesUntilFail
      = some 1 ∧
    ∀ i ≤ 1, (at_ 0x3000 [(0, 0x4000)] [(0x4000, 0x0048), (0x4001, 0x0069)]).memRead (0x4000 + BitVec.ofNat 16 i) ≠ 0) ∧
    ({ at_ 0x3000 [(0, 0x4000)] [(0x4000, 0x6948)] with writesUntilFail := some 1 } : State).writesUntilFail = some 1 ∧
    (∀ i ≤ 0, (at_ 0x3000 [(0, 0x4000)] [(0x4000, 0x6948)]).memRead (0x4000 + BitVec.ofNat 16 i) ≠ 0) ∧
    ((List.range 0).flatMap (packedAt (at_ 0x3000 [(0, 0x4000)] [(0x4000, 0x6948)]) 0x4000)).length ≤ 1 ∧
    1 < ((List.range (0 + 1)).flatMap (packedAt (at_ 0x3000 [(0, 0x4000)] [(0x4000, 0x6948)]) 0x4000)).length := by decide

/-- Memory with the same word at each of the addresses given. -/
def fill (v : Word) (addrs : List Nat) : Memory := addrs.map fun a => (a, v)

theorem read_fill {v : Word} {addrs : List Nat} {a : Nat} (h : a ∈ addrs) : (fill v addrs).read a = v := by
  induction addrs with
  | nil => cases h
  | cons b bs ih =>
    by_cases hb : b = a
    · simp [fill, Memory.read, hb]
    · have : a ∈ bs := (List.mem_cons.mp h).resolve_left (Ne.symm hb)
      simpa [fill, Memory.read, hb] using ih this

/-- A running state inside PUTS or PUTSP, with no 0x0000 word in memory and no failing write. -/
theorem witness_StringServicesGoOnExactlyWithoutATerminator (svc : Service) :
    ∃ s : State, s.run = .running ∧ s.wait = some svc ∧ (∀ a, s.memRead a ≠ 0) ∧ s.writesUntilFail = none ∧
      ∀ n, s.acceptsWrites n := by
  refine ⟨{ State.reset with mem := fill 1 (List.range 65536), wait := some svc }, rfl, rfl, fun a => ?_, rfl,
    fun n k h => by cases h⟩
  rw [State.memRead, read_fill (List.mem_range.mpr a.isLt)]
  decide

/-- The same state meets the hypotheses of `StringServicesNeverEndWithoutATerminator`. -/
theorem witness_StringServicesNeverEndWithoutATerminator :
    ∃ s : State, s.run = .running ∧ s.wait = some .puts ∧ (∀ a, s.memRead a ≠ 0) ∧ s.writesUntilFail = none ∧
      Reaches s s := by
  obtain ⟨s, h1, h2, h3, h4, -⟩ := witness_StringServicesGoOnExactlyWithoutATerminator .puts
  exact ⟨s, h1, h2, h3, h4, .refl s⟩

/-- A running state with a service not completed. -/
theorem witness_StepAnswersWhileRunning :
    ({ State.reset with wait := some .putsp } : State).run = .running ∧
      ({ State.reset with wait := some .putsp } : State).wait = some .putsp := ⟨rfl, rfl⟩

theorem witness_HaltStopsTheMachine : ∃ t, exec .halt State.reset = .next t := ⟨_, rfl⟩

theorem witness_TrapRunsTheServiceOfItsVector :
    State.reset.acceptsWrites 1 ∧ ({ State.reset with consoleIn := [.byte 0] } : State).consoleIn = .byte 0 :: [] ∧
      ((0x1F : BitVec 8) < 0x20 ∨ 0x25 < (0x1F : BitVec 8)) ∧ ((0x26 : BitVec 8) < 0x20 ∨ 0x25 < (0x26 : BitVec 8)) :=
  ⟨fun k h => (by cases h), rfl, .inl (by decide), .inr (by decide)⟩

/-- ADD R0 and another register; GETC and R7. -/
theorem witness_OnlyTheDestinationRegisterChanges :
    (∃ t, exec (.addReg 0 1 2) State.reset = .next t) ∧ destReg (.addReg 0 1 2) ≠ some 7 ∧
      (∃ t, exec .getc State.reset = .next t) ∧ destReg .getc ≠ some 7 := ⟨⟨_, rfl⟩, by decide, ⟨_, rfl⟩, by decide⟩

theorem witness_OnlyDocumentedInstructionsWriteCc :
    (∃ t, exec (.lea 0 0) State.reset = .next t) ∧ setsCc (.lea 0 0) = true ∧
      (∃ t, exec .getc State.reset = .next t) ∧ setsCc .getc = false := ⟨⟨_, rfl⟩, rfl, ⟨_, rfl⟩, rfl⟩

theorem witness_OnlyStoresChangeMemory :
    (∃ t, exec (.st 0 0) State.reset = .next t) ∧ storeAddr (.st 0 0) State.reset ≠ some 0x3001 ∧
      (∃ t, exec .out State.reset = .next t) ∧ storeAddr .out State.reset ≠ some 0x3000 :=
  ⟨⟨_, rfl⟩, by decide, ⟨_, rfl⟩, by decide⟩

theorem witness_OnlyTransfersRedirectThePc :
    (∃ t, exec .rti State.reset = .next t) ∧ transfersControl .rti = false ∧
    ((at_ 0xFFFF [] [(0xFFFF, 0xF025)]).fetches ∧ (∃ t, step (at_ 0xFFFF [] [(0xFFFF, 0xF025)]) = .next t) ∧
      transfersControl (decode 0xF025) = false) ∧
    ∃ t, step { State.reset with wait := some .inp } = .next t :=
  ⟨⟨_, rfl⟩, rfl, ⟨by decide, ⟨_, rfl⟩, by decide⟩, ⟨_, rfl⟩⟩

theorem witness_OnlyTrapsReachTheConsole :
    (∃ t, exec (.ld 0 0) State.reset = .next t) ∧ isTrap (.ld 0 0) = false ∧
      ∃ t, exec .getc { State.reset with consoleIn := [.byte 0] } = .next t := ⟨⟨_, rfl⟩, rfl, ⟨_, rfl⟩⟩

theorem witness_OnlyHaltAndListedFaultsEndTheRun :
    State.reset.run = .running ∧ (∃ t, exec .rti State.reset = .next t) ∧ isTrap (.st 0 0) = false ∧
      Instr.st 0 0 ≠ .rti ∧ Instr.st 0 0 ≠ .reserved := ⟨rfl, ⟨_, rfl⟩, rfl, by decide, by decide⟩

/-- A wait without a reply, a wait with one, and a GETC that begins to wait. -/
theorem witness_WaitChangesNothingUntilAReply :
    (∃ s : State, s.run = .running ∧ s.wait = some .inp ∧ readsConsole (Service.instr .inp) = true ∧ s.consoleIn = []) ∧
    (∃ s : State, s.run = .running ∧ s.wait = some .getc ∧ s.consoleIn = .failed :: []) ∧
    ∃ t, State.reset.wait = none ∧ exec .getc State.reset = .next t ∧ t.wait = some .getc :=
  ⟨⟨{ State.reset with wait := some .inp }, rfl, rfl, rfl, rfl⟩,
    ⟨{ State.reset with wait := some .getc, consoleIn := [.failed] }, rfl, rfl, rfl⟩, ⟨_, rfl, rfl, rfl⟩⟩

theorem witness_AReplyCompletesTheWaitingService :
    (∃ s : State, s.run = .running ∧ s.consoleIn = [] ∧ s.wait = some .getc) ∧
    ∃ s : State, s.run = .running ∧ s.consoleIn = [] ∧ s.wait = some .inp ∧ s.acceptsWrites 1 :=
  ⟨⟨{ State.reset with wait := some .getc }, rfl, rfl, rfl⟩,
    ⟨{ State.reset with wait := some .inp }, rfl, rfl, rfl, fun k h => by cases h⟩⟩

theorem witness_RegistersNotReadDoNotMatter :
    (3 : Reg) ∉ sourceRegs (.addReg 0 1 2) ∧ destReg (.addReg 0 1 2) ≠ some 3 ∧ (0 : Reg) ∉ sourceRegs (.addReg 0 1 2) ∧
      destReg (.addReg 0 1 2) = some 0 ∧ isTrap (.addReg 0 1 2) = false := by decide

theorem witness_RepliesMatterOnlyToGetcAndIn : readsConsole .out = false ∧ readsConsole (.trap 0x24) = false := by decide

theorem witness_ReadReturnsTheLatestWrite : State.reset.mem.wf ∧ (at_ 0 [] [(0, 1), (0xFFFF, 2)]).mem.wf := by decide

theorem witness_CanonicalMemoriesAreFixedByTheirReads :
    Memory.wf [(0, 1), (0xFFFF, 2)] ∧ Memory.wf (Memory.write (Memory.write [] 0xFFFF 2) 0 1) ∧
      Memory.write (Memory.write [] 0xFFFF 2) 0 1 = [(0, 1), (0xFFFF, 2)] := by decide

/-- The store of the word at the pc of `s` goes to the word after it. -/
abbrev storesToNext (s : State) : Prop :=
  s.mem.wf ∧ s.fetches ∧ storeAddr (decode (s.memRead s.pc)) { s with pc := s.pc + 1 } = some (s.pc + 1)

/-- V96's first step; STI R1, #1 through a pointer to the next word; STR R1, R3, #0 from the top of memory. -/
theorem witness_AStoreIsSeenByTheNextFetch :
    storesToNext (at_ 0x3000 [(1, 0x1021)] [(0x3000, 0x3200)]) ∧
    storesToNext (at_ 0x3000 [(1, 0x1021)] [(0x3000, 0xB201), (0x3002, 0x3001)]) ∧
    storesToNext (at_ 0xFFFF [(1, 0x1021), (3, 0x0000)] [(0xFFFF, 0x72C0)]) := by decide

theorem witness_LoaderPlacesTheImage : ∃ s, boot plainLaunch 0xFFFF [0x1234] = .ok s := ⟨_, rfl⟩

theorem witness_ARunStartsWithTheTabledState :
    (∃ m, load [] 0xFFFF [0x1234] = .ok m) ∧ ∃ s, boot plainLaunch 0xFFFF [0x1234] = .ok s := ⟨⟨_, rfl⟩, ⟨_, rfl⟩⟩

theorem witness_LoaderRefusesExactlyTwoImages :
    (∃ e, load [] 0xFFFF [1, 2] = .error e) ∧ (∃ e, load [] 0x3000 [] = .error e) ∧ ∃ m, load [] 0xFFFF [1] = .ok m :=
  ⟨⟨_, rfl⟩, ⟨_, rfl⟩, ⟨_, rfl⟩⟩

theorem witness_WireImageIsBigEndian :
    (([] : List Byte).length < 2 ∨ ([] : List Byte).length % 2 = 1) ∧
      (([0x30, 0x00, 0x01] : List Byte).length < 2 ∨ ([0x30, 0x00, 0x01] : List Byte).length % 2 = 1) := by decide

/-- The reset state meets the invariant and has a next state; so does a state that waits inside GETC. -/
theorem witness_EveryStepKeepsTheInvariant :
    (State.reset.Inv ∧ ∃ t, step State.reset = .next t) ∧
    (State.Inv { at_ 0x3001 [] [(0x3000, 0xF020)] with wait := some .getc } ∧
      ∃ t, step { at_ 0x3001 [] [(0x3000, 0xF020)] with wait := some .getc } = .next t) := by
  refine ⟨⟨⟨by decide, fun svc h => ?_, fun h => ?_, fun r h => ?_⟩, _, rfl⟩,
    ⟨⟨by decide, fun svc h => ?_, fun h => ?_, fun r h => ?_⟩, _, rfl⟩⟩
  · cases h
  · cases h
  · cases h
  · cases h
    exact ⟨rfl, by decide⟩
  · cases h
  · cases h

theorem witness_EveryRunKeepsTheInvariant : ∃ s, boot plainLaunch 0x3000 [0x1021, 0xF025] = .ok s ∧ Reaches s s :=
  ⟨_, rfl, .refl _⟩

/-- Memory of zeros is plain code: every word is a BR that is never taken. -/
theorem witness_PlainCodeRunsForever :
    State.reset.fetches ∧ ∀ a, isTrap (decode (State.reset.memRead a)) = false ∧ decode (State.reset.memRead a) ≠ .rti ∧
      decode (State.reset.memRead a) ≠ .reserved ∧ ∀ u, storeAddr (decode (State.reset.memRead a)) u = none := by
  have h : ∀ a, decode (State.reset.memRead a) = .br false false false 0 := fun a => by
    show decode 0 = _
    decide
  refine ⟨by decide, fun a => ?_⟩
  rw [h a]
  exact ⟨rfl, by decide, by decide, fun u => rfl⟩

/-- V97's JSR and RET. -/
theorem witness_CallThenReturnComesBack :
    (at_ 0x3000 [] [(0x3000, 0x4801), (0x3002, 0xC1C0)]).fetches ∧
      decode ((at_ 0x3000 [] [(0x3000, 0x4801), (0x3002, 0xC1C0)]).memRead 0x3000) = .jsr 1 ∧
      decode ((at_ 0x3000 [] [(0x3000, 0x4801), (0x3002, 0xC1C0)]).memRead (0x3000 + 1 + (1 : BitVec 11).signExtend 16)) =
        .ret := by decide

end Sys2Proof.Tests
end

section
/-! PROOFS. Sign and zero extension of a field of any width up to 16 (00_scope.md R12), and O43. -/

namespace Sys2Proof.Machine

/-- Below the field's width a bit of the sign extension is the field's own; from there on it is the field's top bit. -/
theorem getLsbD_sext {n : Nat} (f : BitVec n) {i : Nat} (hi : i < 16) :
    (sext f).getLsbD i = if i < n then f.getLsbD i else f.getLsbD (n - 1) := by
  rw [sext, BitVec.getLsbD_signExtend, BitVec.msb_eq_getLsbD_last, decide_eq_true hi, Bool.true_and]

/-- No bit of the field is lost (`n ≤ 16`), and a set top bit adds the ones above it, `2 ^ 16 - 2 ^ n`. -/
theorem toNat_sext {n : Nat} (f : BitVec n) (hn : n ≤ 16) :
    (sext f).toNat = if f.getLsbD (n - 1) then f.toNat + 65536 - 2 ^ n else f.toNat := by
  have hpow : 2 ^ n ≤ 65536 := Nat.pow_le_pow_right (n := 2) (by decide) hn
  have hfield : (f.setWidth 16).toNat = f.toNat := BitVec.toNat_setWidth_of_le hn
  rw [sext, BitVec.toNat_signExtend, hfield, BitVec.msb_eq_getLsbD_last]
  split
  · exact (Nat.add_sub_assoc hpow f.toNat).symm
  · rfl

/-- A bit of the zero extension is the field's own below the field's width, and clear from there on. -/
theorem getLsbD_zext {n : Nat} (f : BitVec n) {i : Nat} (hi : i < 16) :
    (zext f).getLsbD i = if i < n then f.getLsbD i else false := by
  rw [zext, BitVec.getLsbD_setWidth, decide_eq_true hi, Bool.true_and]
  split
  · rfl
  · next hge => exact f.getLsbD_of_ge i (Nat.le_of_not_lt hge)

/-- Settles O43: the rules hold at every width up to 16, and the formats' widths are among these. -/
theorem extensionFollowsItsRule : Obligations.ExtensionFollowsItsRule := by
  intro N hN f
  have hle : N ≤ 16 := by
    have hall : ∀ n ∈ [5, 6, 8, 9, 11], n ≤ 16 := by decide
    exact hall N hN
  exact ⟨fun _ hi => getLsbD_sext f hi, toNat_sext f hle, fun _ hi => getLsbD_zext f hi⟩

end Sys2Proof.Machine
end

section
/-! PROOFS. The condition code as the sign of the signed value (10_state.md R27), and O42. -/

namespace Sys2Proof.Machine

/-- `setcc` compares the signed value with zero: bit 15 is its sign. -/
theorem ccOf_eq_sign (v : Word) :
    ccOf v = if v.toInt = 0 then .Z else if v.toInt < 0 then .N else .P := by
  have hzero : v = 0 ↔ v.toInt = 0 := BitVec.toInt_inj.symm
  simp only [ccOf, hzero, BitVec.msb_eq_toInt, decide_eq_true_eq]

/-- Each flag is one sign, by trichotomy. -/
theorem ccOf_eq_iff_sign (v : Word) :
    (ccOf v = .N ↔ v.toInt < 0) ∧ (ccOf v = .Z ↔ v.toInt = 0) ∧ (ccOf v = .P ↔ 0 < v.toInt) := by
  rw [ccOf_eq_sign]
  rcases lt_trichotomy v.toInt 0 with hneg | hzero | hpos
  · simp [hneg, hneg.ne, hneg.not_gt]
  · simp [hzero]
  · simp [hpos, hpos.ne', hpos.not_gt]

/-- Settles O42: bit 15 of a word is its `msb`, and the three flags are the three signs. -/
theorem setccFollowsTheSignOfTheResult : Obligations.SetccFollowsTheSignOfTheResult := by
  intro v
  have hmsb : v.getLsbD 15 = v.msb := (BitVec.msb_eq_getLsbD_last v).symm
  refine ⟨fun hz => if_pos hz, fun hne hN => ?_, fun hne hP => ?_, ccOf_eq_iff_sign v⟩
  · rw [ccOf, if_neg hne, ← hmsb, if_pos hN]
  · rw [ccOf, if_neg hne, ← hmsb, if_neg (ne_true_of_eq_false hP)]

end Sys2Proof.Machine
end

section
/-! PROOFS. The run state: no instruction reads it (10_state.md R31), a run starts Running, and O7. -/

namespace Sys2Proof.Machine

/-! ### Functions of the state under the console writes -/

/-- Apply a function to the state a sequence of writes leaves. -/
def Written.map (g : State → State) : Written → Written
  | .ok s => .ok (g s)
  | .failed s => .failed (g s)

/-- Apply a function to the state a string loop leaves. -/
def Scan.map (g : State → State) : Scan → Scan
  | .ended s => .ended (g s)
  | .failed s => .failed (g s)
  | .goesOn s => .goesOn (g s)

/-- A change of the state that commutes with one console write commutes with a string of them. -/
theorem consoleWriteAll_map {g : State → State}
    (hwrite : ∀ s b, (g s).consoleWrite b = (s.consoleWrite b).map g) (s : State) (bs : List Byte) :
    (g s).consoleWriteAll bs = (s.consoleWriteAll bs).map g := by
  induction bs generalizing s with
  | nil => rfl
  | cons b bs ih =>
    rw [State.consoleWriteAll, State.consoleWriteAll, hwrite]
    cases s.consoleWrite b with
    | ok t => exact ih t
    | failed t => rfl

/-- A change of the state that also keeps what memory reads as commutes with the string loop. -/
theorem stringLoop_map {g : State → State} (hread : ∀ s a, (g s).memRead a = s.memRead a)
    (hwrite : ∀ s b, (g s).consoleWrite b = (s.consoleWrite b).map g) (emit : Word → List Byte) (n : Nat) (a : Word)
    (s : State) : stringLoop emit n a (g s) = (stringLoop emit n a s).map g := by
  induction n generalizing a s with
  | zero => rfl
  | succ n ih =>
    rw [stringLoop_succ, stringLoop_succ, hread, consoleWriteAll_map hwrite]
    split
    · rfl
    · cases s.consoleWriteAll (emit (s.memRead a)) with
      | ok t => exact ih (a + 1) t
      | failed t => rfl

/-! ### Functions that do not read the run state -/

/-- The state with another run state. -/
def State.withRun (s : State) (r : RunState) : State := { s with run := r }

/-- `f` leaves the same state whatever the run state before it, but for the run state itself. -/
def IgnoresRun (f : State → State) : Prop :=
  ∀ s r, (f (s.withRun r)).withRun .running = (f s).withRun .running

theorem consoleWrite_withRun (r : RunState) (s : State) (b : Byte) :
    (s.withRun r).consoleWrite b = (s.consoleWrite b).map (·.withRun r) := by
  obtain ⟨regs, pc, cc, mem, run, wait, cin, cout, wuf⟩ := s
  rcases wuf with _ | _ | k <;> rfl

/-- Going on after writes, or faulting, does not read the run state the writes left. -/
theorem andThen_ignoresRun {k : State → State} (hk : IgnoresRun k) (w : Written) (r : RunState) :
    ((w.map (·.withRun r)).andThen k).withRun .running = (w.andThen k).withRun .running := by
  cases w with
  | ok s => exact hk s r
  | failed s => rfl

theorem consoleWrite_andThen_ignoresRun {k : State → State} (hk : IgnoresRun k) (b : State → Byte)
    (hb : ∀ s r, b (s.withRun r) = b s) : IgnoresRun fun s => (s.consoleWrite (b s)).andThen k := by
  intro s r
  simp only [hb, consoleWrite_withRun, andThen_ignoresRun hk]

theorem consoleWriteAll_andThen_ignoresRun {k : State → State} (hk : IgnoresRun k) (bs : List Byte) :
    IgnoresRun fun s => (s.consoleWriteAll bs).andThen k := by
  intro s r
  simp only [consoleWriteAll_map (consoleWrite_withRun r), andThen_ignoresRun hk]

theorem consoleRead_ignoresRun (svc : Service) {k : State → Byte → State} (hk : ∀ b, IgnoresRun (k · b)) :
    IgnoresRun (·.consoleRead svc k) := by
  rintro ⟨regs, pc, cc, mem, run, wait, cin, cout, wuf⟩ r
  rcases cin with _ | ⟨b | _, rest⟩
  · rfl
  · exact hk b ⟨regs, pc, cc, mem, run, none, rest, cout, wuf⟩ r
  · rfl

theorem writeString_ignoresRun (svc : Service) (emit : Word → List Byte) : IgnoresRun (·.writeString svc emit) := by
  intro s r
  have hloop := stringLoop_map (g := (·.withRun r)) (fun _ _ => rfl) (consoleWrite_withRun r) emit 65536 (s.getReg 0) s
  have hreg : (s.withRun r).getReg 0 = s.getReg 0 := rfl
  simp only [State.writeString, hreg, hloop]
  cases stringLoop emit 65536 (s.getReg 0) s <;> rfl

theorem getcRead_ignoresRun : IgnoresRun State.getcRead := consoleRead_ignoresRun .getc fun _ _ _ => rfl

theorem inRead_ignoresRun : IgnoresRun State.inRead :=
  consoleRead_ignoresRun .inp fun b => consoleWrite_andThen_ignoresRun (fun _ _ => rfl) (fun _ => b) fun _ _ => rfl

/-! ### Instructions -/

/-- An instruction's answers in two run states agree but for the run state they leave. -/
def AnswersIgnoreRun (f : State → Result) : Prop :=
  ∀ s r, mapNext (·.withRun .running) (f (s.withRun r)) = mapNext (·.withRun .running) (f s)

theorem answersIgnoreRun_next {f : State → State} (hf : IgnoresRun f) : AnswersIgnoreRun fun s => .next (f s) :=
  fun s r => congrArg Host.Outcome.next (hf s r)

theorem execBr_ignoresRun (n z p : Bool) (off : BitVec 9) : AnswersIgnoreRun (execBr n z p off) := by
  refine answersIgnoreRun_next fun s r => ?_
  have hcc : (s.withRun r).cc = s.cc := rfl
  rw [hcc]
  split <;> rfl

theorem execGetc_ignoresRun : AnswersIgnoreRun execGetc := answersIgnoreRun_next getcRead_ignoresRun

theorem execOut_ignoresRun : AnswersIgnoreRun execOut :=
  answersIgnoreRun_next <|
    consoleWrite_andThen_ignoresRun (fun _ _ => rfl) (fun s => lowByte (s.getReg 0)) fun _ _ => rfl

theorem execPuts_ignoresRun : AnswersIgnoreRun execPuts :=
  answersIgnoreRun_next (writeString_ignoresRun .puts putsBytes)

theorem execIn_ignoresRun : AnswersIgnoreRun execIn :=
  answersIgnoreRun_next (consoleWriteAll_andThen_ignoresRun inRead_ignoresRun inPrompt)

theorem execPutsp_ignoresRun : AnswersIgnoreRun execPutsp :=
  answersIgnoreRun_next (writeString_ignoresRun .putsp putspBytes)

theorem execHalt_ignoresRun : AnswersIgnoreRun execHalt :=
  answersIgnoreRun_next (consoleWriteAll_andThen_ignoresRun (fun _ _ => rfl) haltMessage)

/-- The vector alone chooses the service. -/
theorem execTrap_ignoresRun (vect : BitVec 8) : AnswersIgnoreRun (execTrap vect) := by
  unfold execTrap
  split
  · exact execGetc_ignoresRun
  · exact execOut_ignoresRun
  · exact execPuts_ignoresRun
  · exact execIn_ignoresRun
  · exact execPutsp_ignoresRun
  · exact execHalt_ignoresRun
  · exact fun _ _ => rfl

/-- The instructions without a case of their own here answer one update of the state, made of fields other than the run
state. -/
theorem exec_ignoresRun (i : Instr) : AnswersIgnoreRun (exec i) := by
  cases i with
  | br n z p off => exact execBr_ignoresRun n z p off
  | trap vect => exact execTrap_ignoresRun vect
  | getc => exact execGetc_ignoresRun
  | out => exact execOut_ignoresRun
  | puts => exact execPuts_ignoresRun
  | inp => exact execIn_ignoresRun
  | putsp => exact execPutsp_ignoresRun
  | halt => exact execHalt_ignoresRun
  | _ => exact fun _ _ => rfl

/-! ### The start of a run -/

/-- A run that starts has its image loaded, and every other field at its start value (70_reset_and_hazards.md R220). -/
theorem boot_ok {l : Launch} {origin : Word} {words : List Word} {s : State} (h : boot l origin words = .ok s) :
    ∃ mem, load [] origin words = .ok mem ∧
      s = { regs := l.gprReset, pc := origin, cc := l.ccReset, mem := mem, run := .running, wait := none,
            consoleIn := l.consoleIn, consoleOut := [], writesUntilFail := l.writesUntilFail } := by
  unfold boot at h
  split at h
  · cases h
  · next mem hload => exact ⟨mem, hload, (Except.ok.inj h).symm⟩

/-- Settles O7: the terminal states by the laws of `step`, and the instructions by `exec_ignoresRun`. -/
theorem runStateIsTerminalAndUnreadable : Obligations.RunStateIsTerminalAndUnreadable := by
  refine ⟨rfl, fun l origin words s h => ?_, fun s => step_halted, fun s reason => step_faulted, exec_ignoresRun⟩
  obtain ⟨mem, -, rfl⟩ := boot_ok h
  rfl

end Sys2Proof.Machine
end

section
/-! PROOFS. The Loader (20_memory.md R50, R51): which images it refuses and what memory reads after it, O48 and O49. -/

namespace Sys2Proof.Machine

/-! ### Reads after the Loader's writes -/

/-- Outside the block the words are written to, memory reads as before. -/
theorem Memory.read_writeWords_outside (m : Memory) {a b : Nat} (ws : List Word) (h : b < a ∨ a + ws.length ≤ b) :
    (m.writeWords a ws).read b = m.read b := by
  induction ws generalizing m a with
  | nil => rfl
  | cons w ws ih =>
    rw [List.length_cons] at h
    calc ((m.write a w).writeWords (a + 1) ws).read b
      _ = (m.write a w).read b := ih (m.write a w) (by omega)
      _ = m.read b := Memory.read_write_other m (by omega) w

/-- A block written to a canonical memory reads back word for word. -/
theorem Memory.read_writeWords_getElem {m : Memory} (hm : m.wf) {a i : Nat} {ws : List Word}
    (ha : a + ws.length ≤ 65536) (hi : i < ws.length) : (m.writeWords a ws).read (a + i) = ws[i] := by
  induction ws generalizing m a i with
  | nil => exact absurd hi (Nat.not_lt_zero i)
  | cons w ws ih =>
    rw [List.length_cons] at ha hi
    cases i with
    | zero =>
      calc ((m.write a w).writeWords (a + 1) ws).read a
        _ = (m.write a w).read a := Memory.read_writeWords_outside _ ws (.inl a.lt_succ_self)
        _ = w := by rw [Memory.read_write hm, if_pos rfl]
    | succ i =>
      calc ((m.write a w).writeWords (a + 1) ws).read (a + i + 1)
        _ = ((m.write a w).writeWords (a + 1) ws).read (a + 1 + i) := by rw [Nat.add_right_comm]
        _ = ws[i] := ih (Memory.write_wf hm (by omega) w) (by omega) (Nat.lt_of_succ_lt_succ hi)

/-! ### What the Loader takes and refuses -/

/-- The two causes of R51 are the only ones, whatever memory holds. -/
theorem load_error_iff (m : Memory) (origin : Word) (words : List Word) :
    (∃ e, load m origin words = .error e) ↔ words = [] ∨ origin.toNat + words.length - 1 > 0xFFFF := by
  unfold load
  split
  · next hempty => exact ⟨fun _ => .inl hempty, fun _ => ⟨_, rfl⟩⟩
  · next hne =>
    split
    · next hpast => exact ⟨fun _ => .inr hpast, fun _ => ⟨_, rfl⟩⟩
    · next hfits => exact ⟨fun ⟨_, he⟩ => (nomatch he), fun h => absurd h (not_or.mpr ⟨hne, hfits⟩)⟩

/-- A run does not start exactly when the load from zero memory fails (R53). -/
theorem boot_error_iff (l : Launch) (origin : Word) (words : List Word) :
    (∃ e, boot l origin words = .error e) ↔ ∃ e, load [] origin words = .error e := by
  unfold boot
  cases load [] origin words <;> simp

/-- An image the Loader takes fits below the end of memory, and its words are all the Loader writes (R50). -/
theorem load_ok {m mem : Memory} {origin : Word} {words : List Word} (h : load m origin words = .ok mem) :
    origin.toNat + words.length ≤ 65536 ∧ mem = m.writeWords origin.toNat words := by
  have hfits : ¬(words = [] ∨ origin.toNat + words.length - 1 > 0xFFFF) := by
    rw [← load_error_iff m, h]
    exact fun ⟨_, he⟩ => nomatch he
  obtain ⟨hne, hlast⟩ := not_or.mp hfits
  rw [load, if_neg hne, if_neg hlast] at h
  exact ⟨by omega, (Except.ok.inj h).symm⟩

/-- Settles O49: a run fails to start exactly when the load fails, and the load has two causes to fail. -/
theorem loaderRefusesExactlyTwoImages : Obligations.LoaderRefusesExactlyTwoImages := by
  intro l origin words
  exact ⟨load_error_iff [] origin words, (boot_error_iff l origin words).trans (load_error_iff [] origin words)⟩

/-- Settles O48: the memory a run starts with is the block of words written to zero memory. -/
theorem loaderPlacesTheImage : Obligations.LoaderPlacesTheImage := by
  intro l origin words s h
  obtain ⟨mem, hload, rfl⟩ := boot_ok h
  refine ⟨rfl, rfl, load_wf hload, ?_⟩
  obtain ⟨hfits, rfl⟩ := load_ok hload
  exact ⟨fun i hi => Memory.read_writeWords_getElem Memory.wf_nil hfits hi,
    fun a ha => Memory.read_writeWords_outside [] words ha⟩

end Sys2Proof.Machine
end

section
/-! PROOFS. The words of the two opcodes that fault: the opcode field alone makes them fault (60_exceptions.md R202),
and O9. -/

namespace Sys2Proof

/-- Every word 0x8000 to 0x8FFF is RTI (30_encoding.md R68). -/
theorem decode_eq_rti {w : Word} (h : w &&& 0xF000 = 0x8000) : decode w = .rti := by
  have hop : bits w 12 4 = 0x8#4 := opcode_of_mask rfl h
  rw [decode, hop]
  rfl

/-- Every word 0xD000 to 0xDFFF is the reserved opcode (30_encoding.md R68). -/
theorem decode_eq_reserved {w : Word} (h : w &&& 0xF000 = 0xD000) : decode w = .reserved := by
  have hop : bits w 12 4 = 0xD#4 := opcode_of_mask rfl h
  rw [decode, hop]
  rfl

namespace Machine

/-- RTI raises its fault in every state (42_control.md R157). -/
theorem exec_rti (s : State) : exec .rti s = .next (s.raiseFault (.invalidOpcode .rti)) := rfl

/-- The reserved opcode raises its fault in every state (42_control.md R158). -/
theorem exec_reserved (s : State) : exec .reserved s = .next (s.raiseFault (.invalidOpcode .reserved)) := rfl

/-- A fault raised after the fetch increment leaves every other field as it was (60_exceptions.md R200). -/
theorem advance_raiseFault (s : State) (reason : FaultReason) :
    s.advance.raiseFault reason = { s with pc := s.pc + 1, run := .faulted reason } := rfl

/-- Settles O9: the masked opcode fixes the decoded instruction, and the step is its fault after the increment. -/
theorem rtiAndReservedWordsFault : Obligations.RtiAndReservedWordsFault := by
  intro s hs
  constructor
  · intro hw
    rw [step_fetches hs, decode_eq_rti hw, exec_rti, advance_raiseFault]
  · intro hw
    rw [step_fetches hs, decode_eq_reserved hw, exec_reserved, advance_raiseFault]

end Machine

end Sys2Proof
end

section
/-! PROOFS. The exit status a host reports (60_exceptions.md R205): its value for each end of a run, and O51. -/

namespace Sys2Proof.Machine

/-- A halted run reports 0. -/
@[simp] theorem RunState.exitStatus_halted : RunState.halted.exitStatus = some 0 := rfl

/-- A run that has not ended reports nothing. -/
@[simp] theorem RunState.exitStatus_running : RunState.running.exitStatus = none := rfl

/-- A faulted run reports `EXIT_FAULT`, whatever its reason. -/
@[simp] theorem RunState.exitStatus_faulted (reason : FaultReason) :
    (RunState.faulted reason).exitStatus = some (Config.exitFaultLess1 + 1) := rfl

/-- A run that could not start reports `EXIT_LOADERROR`, which is a successor and so never 0. -/
theorem LoadError.exitStatus_ne_zero (e : LoadError) : e.exitStatus ≠ 0 := Nat.succ_ne_zero _

/-- Settles O51: each end's status by its equation; the two open statuses are successors, so non-zero for any value. -/
theorem exitStatusIsZeroExactlyOnHalted : Obligations.ExitStatusIsZeroExactlyOnHalted := by
  refine ⟨RunState.exitStatus_halted, fun reason => ?_, LoadError.exitStatus_ne_zero, RunState.exitStatus_running⟩
  exact ⟨_, RunState.exitStatus_faulted reason, Nat.succ_ne_zero _⟩

end Sys2Proof.Machine
end

section
/-! PROOFS. One step while Running: fetch, increment, decode, execute (70_reset_and_hazards.md R223), and O5. -/

namespace Sys2Proof.Machine

/-- The fetch increment is an update of the pc alone (R224). -/
theorem advance_eq (s : State) : s.advance = { s with pc := s.pc + 1 } := rfl

/-- Settles O5: a Running state with no service under way fetches, and the instruction runs after the increment. -/
theorem stepRunsTheDecodedInstruction : Obligations.StepRunsTheDecodedInstruction := by
  intro s hrun hwait
  have hfetch : s.fetches := ⟨hrun, hwait⟩
  rw [step_fetches hfetch, advance_eq]

end Sys2Proof.Machine
end

section
/-! PROOFS. The encoding (30_encoding.md R62, R65 to R70): an instruction's words are the words with its fields, and O1
to O4. -/

namespace Sys2Proof

open Machine

/-! ### Fields -/

/-- A bit inside a field is a bit of the field. -/
theorem getLsbD_bits (w : Word) {lo n k : Nat} (hlo : lo ≤ k) (hk : k < lo + n) :
    (bits w lo n).getLsbD (k - lo) = bit w k := by
  rw [bits, BitVec.getLsbD_extractLsb', decide_eq_true (show k - lo < n by omega), Bool.true_and,
    Nat.add_sub_cancel' hlo, bit]

/-- A bit read as a field of width 1. -/
theorem bits_one (w : Word) (k : Nat) : bits w k 1 = bitField (bit w k) := by
  refine BitVec.eq_of_getLsbD_eq fun i hi => ?_
  obtain rfl : i = 0 := by omega
  simp [bits, bit, bitField]

/-- The field of width 1 fixes the bit at its place. -/
theorem bit_eq_of_bits {w : Word} {k : Nat} {b : Bool} (h : bits w k 1 = bitField b) : bit w k = b := by
  have h0 : (bitField (bit w k)).getLsbD 0 = (bitField b).getLsbD 0 := by rw [← bits_one, h]
  simpa [bitField] using h0

/-- Words with the same fields agree on every mask the fields cover. -/
theorem and_eq_and_of_bits {v w : Word} (m : Word) (fields : List (Nat × Nat))
    (hcover : ∀ k < 16, bit m k = true → ∃ f ∈ fields, f.1 ≤ k ∧ k < f.1 + f.2)
    (hbits : ∀ f ∈ fields, bits v f.1 f.2 = bits w f.1 f.2) : v &&& m = w &&& m := by
  refine BitVec.eq_of_getLsbD_eq fun k hk => ?_
  rw [BitVec.getLsbD_and, BitVec.getLsbD_and]
  cases hm : m.getLsbD k
  · rw [Bool.and_false, Bool.and_false]
  · obtain ⟨f, hf, hlo, hhi⟩ := hcover k hk hm
    have hbit : bit v k = bit w k := by rw [← getLsbD_bits v hlo hhi, hbits f hf, getLsbD_bits w hlo hhi]
    exact congrArg (· && true) hbit

/-! ### The formats of R62 -/

/-- A field above the last part of a word lies in what stands before that part. -/
theorem extractLsb'_append_above {m n lo k : Nat} {x : BitVec m} {y : BitVec n} {f : BitVec k} (hlo : n ≤ lo)
    (hx : x.extractLsb' (lo - n) k = f) : (x ++ y).extractLsb' lo k = f :=
  (BitVec.extractLsb'_append_eq_of_le hlo).trans hx

open BitVec (extractLsb'_append_eq_left extractLsb'_append_eq_right)

/-- Opcode, register and offset: LD, LDI, LEA, ST and STI. -/
theorem bits_offset9 (op : BitVec 4) (r : BitVec 3) (f : BitVec 9) :
    bits (op ++ r ++ f) 12 4 = op ∧ bits (op ++ r ++ f) 9 3 = r ∧ bits (op ++ r ++ f) 0 9 = f :=
  ⟨extractLsb'_append_above (by decide) extractLsb'_append_eq_left,
    extractLsb'_append_above (by decide) extractLsb'_append_eq_right, extractLsb'_append_eq_right⟩

/-- Opcode and two registers, what LDR, STR, NOT, JMP, JSRR, ADD and AND begin with. -/
theorem extractLsb'_opcode_registers (op : BitVec 4) (r q : BitVec 3) :
    (op ++ r ++ q).extractLsb' 6 4 = op ∧ (op ++ r ++ q).extractLsb' 3 3 = r ∧ (op ++ r ++ q).extractLsb' 0 3 = q :=
  ⟨extractLsb'_append_above (by decide) extractLsb'_append_eq_left,
    extractLsb'_append_above (by decide) extractLsb'_append_eq_right, extractLsb'_append_eq_right⟩

/-- Opcode, two registers and six bits: LDR, STR, NOT, JMP and JSRR. -/
theorem bits_offset6 (op : BitVec 4) (r q : BitVec 3) (f : BitVec 6) :
    bits (op ++ r ++ q ++ f) 12 4 = op ∧ bits (op ++ r ++ q ++ f) 9 3 = r ∧ bits (op ++ r ++ q ++ f) 6 3 = q ∧
      bits (op ++ r ++ q ++ f) 0 6 = f := by
  obtain ⟨hop, hr, hq⟩ := extractLsb'_opcode_registers op r q
  exact ⟨extractLsb'_append_above (by decide) hop, extractLsb'_append_above (by decide) hr,
    extractLsb'_append_above (by decide) hq, extractLsb'_append_eq_right⟩

/-- The register form of ADD and AND. -/
theorem bits_registerForm (op : BitVec 4) (r q p : BitVec 3) :
    bits (op ++ r ++ q ++ 0b000#3 ++ p) 12 4 = op ∧ bits (op ++ r ++ q ++ 0b000#3 ++ p) 9 3 = r ∧
      bits (op ++ r ++ q ++ 0b000#3 ++ p) 6 3 = q ∧ bits (op ++ r ++ q ++ 0b000#3 ++ p) 5 1 = bitField false ∧
      bits (op ++ r ++ q ++ 0b000#3 ++ p) 0 3 = p := by
  obtain ⟨hop, hr, hq⟩ := extractLsb'_opcode_registers op r q
  refine ⟨extractLsb'_append_above (by decide) (extractLsb'_append_above (by decide) hop),
    extractLsb'_append_above (by decide) (extractLsb'_append_above (by decide) hr),
    extractLsb'_append_above (by decide) (extractLsb'_append_above (by decide) hq),
    extractLsb'_append_above (by decide) ?_, extractLsb'_append_eq_right⟩
  exact (BitVec.extractLsb'_append_eq_of_add_le (by decide)).trans (by decide)

/-- The immediate form of ADD and AND. -/
theorem bits_immediateForm (op : BitVec 4) (r q : BitVec 3) (f : BitVec 5) :
    bits (op ++ r ++ q ++ 1#1 ++ f) 12 4 = op ∧ bits (op ++ r ++ q ++ 1#1 ++ f) 9 3 = r ∧
      bits (op ++ r ++ q ++ 1#1 ++ f) 6 3 = q ∧ bits (op ++ r ++ q ++ 1#1 ++ f) 5 1 = bitField true ∧
      bits (op ++ r ++ q ++ 1#1 ++ f) 0 5 = f := by
  obtain ⟨hop, hr, hq⟩ := extractLsb'_opcode_registers op r q
  exact ⟨extractLsb'_append_above (by decide) (extractLsb'_append_above (by decide) hop),
    extractLsb'_append_above (by decide) (extractLsb'_append_above (by decide) hr),
    extractLsb'_append_above (by decide) (extractLsb'_append_above (by decide) hq),
    extractLsb'_append_above (by decide) extractLsb'_append_eq_right, extractLsb'_append_eq_right⟩

/-- BR. -/
theorem bits_branch (op : BitVec 4) (n z p : BitVec 1) (f : BitVec 9) :
    bits (op ++ n ++ z ++ p ++ f) 12 4 = op ∧ bits (op ++ n ++ z ++ p ++ f) 11 1 = n ∧
      bits (op ++ n ++ z ++ p ++ f) 10 1 = z ∧ bits (op ++ n ++ z ++ p ++ f) 9 1 = p ∧
      bits (op ++ n ++ z ++ p ++ f) 0 9 = f :=
  ⟨extractLsb'_append_above (by decide) <| extractLsb'_append_above (by decide) <|
      extractLsb'_append_above (by decide) extractLsb'_append_eq_left,
    extractLsb'_append_above (by decide) <| extractLsb'_append_above (by decide) <|
      extractLsb'_append_above (by decide) extractLsb'_append_eq_right,
    extractLsb'_append_above (by decide) <| extractLsb'_append_above (by decide) extractLsb'_append_eq_right,
    extractLsb'_append_above (by decide) extractLsb'_append_eq_right, extractLsb'_append_eq_right⟩

/-- JSR. -/
theorem bits_offset11 (op : BitVec 4) (b : BitVec 1) (f : BitVec 11) :
    bits (op ++ b ++ f) 12 4 = op ∧ bits (op ++ b ++ f) 11 1 = b ∧ bits (op ++ b ++ f) 0 11 = f :=
  ⟨extractLsb'_append_above (by decide) extractLsb'_append_eq_left,
    extractLsb'_append_above (by decide) extractLsb'_append_eq_right, extractLsb'_append_eq_right⟩

/-! ### The words of an instruction -/

/-- `w` has the fields of `i` in their places of R62, with the bits marked `x` left open; of JMP and TRAP, the words that
the opcode table gives no other name (R74). -/
inductive Encodes (w : Word) : Instr → Prop
  | br {n z p off} (op : bits w 12 4 = 0x0#4) (hn : bits w 11 1 = bitField n) (hz : bits w 10 1 = bitField z)
      (hp : bits w 9 1 = bitField p) (hoff : bits w 0 9 = off) : Encodes w (.br n z p off)
  | addReg {dr sr1 sr2} (op : bits w 12 4 = 0x1#4) (hdr : bits w 9 3 = regBits dr) (hsr1 : bits w 6 3 = regBits sr1)
      (mode : bits w 5 1 = bitField false) (hsr2 : bits w 0 3 = regBits sr2) : Encodes w (.addReg dr sr1 sr2)
  | addImm {dr sr1 imm} (op : bits w 12 4 = 0x1#4) (hdr : bits w 9 3 = regBits dr) (hsr1 : bits w 6 3 = regBits sr1)
      (mode : bits w 5 1 = bitField true) (himm : bits w 0 5 = imm) : Encodes w (.addImm dr sr1 imm)
  | ld {dr off} (op : bits w 12 4 = 0x2#4) (hdr : bits w 9 3 = regBits dr) (hoff : bits w 0 9 = off) :
      Encodes w (.ld dr off)
  | st {sr off} (op : bits w 12 4 = 0x3#4) (hsr : bits w 9 3 = regBits sr) (hoff : bits w 0 9 = off) :
      Encodes w (.st sr off)
  | jsr {off} (op : bits w 12 4 = 0x4#4) (mode : bits w 11 1 = bitField true) (hoff : bits w 0 11 = off) :
      Encodes w (.jsr off)
  | jsrr {base} (op : bits w 12 4 = 0x4#4) (mode : bits w 11 1 = bitField false) (hbase : bits w 6 3 = regBits base) :
      Encodes w (.jsrr base)
  | andReg {dr sr1 sr2} (op : bits w 12 4 = 0x5#4) (hdr : bits w 9 3 = regBits dr) (hsr1 : bits w 6 3 = regBits sr1)
      (mode : bits w 5 1 = bitField false) (hsr2 : bits w 0 3 = regBits sr2) : Encodes w (.andReg dr sr1 sr2)
  | andImm {dr sr1 imm} (op : bits w 12 4 = 0x5#4) (hdr : bits w 9 3 = regBits dr) (hsr1 : bits w 6 3 = regBits sr1)
      (mode : bits w 5 1 = bitField true) (himm : bits w 0 5 = imm) : Encodes w (.andImm dr sr1 imm)
  | ldr {dr base off} (op : bits w 12 4 = 0x6#4) (hdr : bits w 9 3 = regBits dr) (hbase : bits w 6 3 = regBits base)
      (hoff : bits w 0 6 = off) : Encodes w (.ldr dr base off)
  | str {sr base off} (op : bits w 12 4 = 0x7#4) (hsr : bits w 9 3 = regBits sr) (hbase : bits w 6 3 = regBits base)
      (hoff : bits w 0 6 = off) : Encodes w (.str sr base off)
  | rti (op : bits w 12 4 = 0x8#4) : Encodes w .rti
  | not {dr sr} (op : bits w 12 4 = 0x9#4) (hdr : bits w 9 3 = regBits dr) (hsr : bits w 6 3 = regBits sr) :
      Encodes w (.not dr sr)
  | ldi {dr off} (op : bits w 12 4 = 0xA#4) (hdr : bits w 9 3 = regBits dr) (hoff : bits w 0 9 = off) :
      Encodes w (.ldi dr off)
  | sti {sr off} (op : bits w 12 4 = 0xB#4) (hsr : bits w 9 3 = regBits sr) (hoff : bits w 0 9 = off) :
      Encodes w (.sti sr off)
  | jmp {base} (op : bits w 12 4 = 0xC#4) (hbase : bits w 6 3 = regBits base) (named : base ≠ 7) :
      Encodes w (.jmp base)
  | ret (op : bits w 12 4 = 0xC#4) (hbase : bits w 6 3 = 7#3) : Encodes w .ret
  | reserved (op : bits w 12 4 = 0xD#4) : Encodes w .reserved
  | lea {dr off} (op : bits w 12 4 = 0xE#4) (hdr : bits w 9 3 = regBits dr) (hoff : bits w 0 9 = off) :
      Encodes w (.lea dr off)
  | trap {v} (op : bits w 12 4 = 0xF#4) (hv : bits w 0 8 = v) (unknown : v.toNat < 0x20 ∨ 0x25 < v.toNat) :
      Encodes w (.trap v)
  | getc (op : bits w 12 4 = 0xF#4) (hv : bits w 0 8 = 0x20#8) : Encodes w .getc
  | out (op : bits w 12 4 = 0xF#4) (hv : bits w 0 8 = 0x21#8) : Encodes w .out
  | puts (op : bits w 12 4 = 0xF#4) (hv : bits w 0 8 = 0x22#8) : Encodes w .puts
  | inp (op : bits w 12 4 = 0xF#4) (hv : bits w 0 8 = 0x23#8) : Encodes w .inp
  | putsp (op : bits w 12 4 = 0xF#4) (hv : bits w 0 8 = 0x24#8) : Encodes w .putsp
  | halt (op : bits w 12 4 = 0xF#4) (hv : bits w 0 8 = 0x25#8) : Encodes w .halt

/-- The register a register's field names. -/
theorem regOf_eq_of_bits {f : BitVec 3} {r : Reg} (h : f = regBits r) : regOf f = r := by
  subst h
  rfl

/-- A vector outside R171's table stands for itself. -/
theorem decodeVector_unknown {v : BitVec 8} (h : v.toNat < 0x20 ∨ 0x25 < v.toNat) : decodeVector v = .trap v := by
  unfold decodeVector
  split
  case h_7 => rfl
  all_goals omega

/-- The decoder reads each instruction from its words: the opcode chooses the format, and the fields fill it. -/
theorem Encodes.decode_eq {w : Word} {i : Instr} (h : Encodes w i) : decode w = i := by
  cases h with
  | br op hn hz hp hoff => simp [decode, decodeBr, op, bit_eq_of_bits hn, bit_eq_of_bits hz, bit_eq_of_bits hp, hoff]
  | addReg op hdr hsr1 mode hsr2 =>
    simp [decode, decodeAdd, op, bit_eq_of_bits mode, regOf_eq_of_bits hdr, regOf_eq_of_bits hsr1,
      regOf_eq_of_bits hsr2]
  | addImm op hdr hsr1 mode himm =>
    simp [decode, decodeAdd, op, bit_eq_of_bits mode, regOf_eq_of_bits hdr, regOf_eq_of_bits hsr1, himm]
  | ld op hdr hoff => simp [decode, op, regOf_eq_of_bits hdr, hoff]
  | st op hsr hoff => simp [decode, op, regOf_eq_of_bits hsr, hoff]
  | jsr op mode hoff => simp [decode, decodeJsr, op, bit_eq_of_bits mode, hoff]
  | jsrr op mode hbase => simp [decode, decodeJsr, op, bit_eq_of_bits mode, regOf_eq_of_bits hbase]
  | andReg op hdr hsr1 mode hsr2 =>
    simp [decode, decodeAnd, op, bit_eq_of_bits mode, regOf_eq_of_bits hdr, regOf_eq_of_bits hsr1,
      regOf_eq_of_bits hsr2]
  | andImm op hdr hsr1 mode himm =>
    simp [decode, decodeAnd, op, bit_eq_of_bits mode, regOf_eq_of_bits hdr, regOf_eq_of_bits hsr1, himm]
  | ldr op hdr hbase hoff => simp [decode, op, regOf_eq_of_bits hdr, regOf_eq_of_bits hbase, hoff]
  | str op hsr hbase hoff => simp [decode, op, regOf_eq_of_bits hsr, regOf_eq_of_bits hbase, hoff]
  | rti op => simp [decode, op]
  | not op hdr hsr => simp [decode, op, regOf_eq_of_bits hdr, regOf_eq_of_bits hsr]
  | ldi op hdr hoff => simp [decode, op, regOf_eq_of_bits hdr, hoff]
  | sti op hsr hoff => simp [decode, op, regOf_eq_of_bits hsr, hoff]
  | jmp op hbase named => simp [decode, decodeJmp, op, regOf_eq_of_bits hbase, named]
  | ret op hbase => simp [decode, decodeJmp, op, hbase, regOf]
  | reserved op => simp [decode, op]
  | lea op hdr hoff => simp [decode, op, regOf_eq_of_bits hdr, hoff]
  | trap op hv unknown => simp [decode, op, hv, decodeVector_unknown unknown]
  | getc op hv => simp [decode, op, hv, decodeVector]
  | out op hv => simp [decode, op, hv, decodeVector]
  | puts op hv => simp [decode, op, hv, decodeVector]
  | inp op hv => simp [decode, op, hv, decodeVector]
  | putsp op hv => simp [decode, op, hv, decodeVector]
  | halt op hv => simp [decode, op, hv, decodeVector]

/-- The encoder's word of a well-formed instruction has its fields. -/
theorem encodes_encode {i : Instr} (h : i.wellFormed = true) : Encodes (encode i) i := by
  cases i with
  | br n z p off =>
    obtain ⟨op, hn, hz, hp, hoff⟩ := bits_branch 0x0#4 (bitField n) (bitField z) (bitField p) off
    exact .br op hn hz hp hoff
  | addReg dr sr1 sr2 =>
    obtain ⟨op, hdr, hsr1, mode, hsr2⟩ := bits_registerForm 0x1#4 (regBits dr) (regBits sr1) (regBits sr2)
    exact .addReg op hdr hsr1 mode hsr2
  | addImm dr sr1 imm =>
    obtain ⟨op, hdr, hsr1, mode, himm⟩ := bits_immediateForm 0x1#4 (regBits dr) (regBits sr1) imm
    exact .addImm op hdr hsr1 mode himm
  | ld dr off =>
    obtain ⟨op, hdr, hoff⟩ := bits_offset9 0x2#4 (regBits dr) off
    exact .ld op hdr hoff
  | st sr off =>
    obtain ⟨op, hsr, hoff⟩ := bits_offset9 0x3#4 (regBits sr) off
    exact .st op hsr hoff
  | jsr off =>
    obtain ⟨op, mode, hoff⟩ := bits_offset11 0x4#4 1#1 off
    exact .jsr op mode hoff
  | jsrr base =>
    obtain ⟨op, -, hbase, -⟩ := bits_offset6 0x4#4 0b000#3 (regBits base) 0b000000#6
    refine .jsrr op ?_ hbase
    exact extractLsb'_append_above (by decide) <| extractLsb'_append_above (by decide) <|
      (BitVec.extractLsb'_append_eq_of_add_le (by decide)).trans (by decide)
  | andReg dr sr1 sr2 =>
    obtain ⟨op, hdr, hsr1, mode, hsr2⟩ := bits_registerForm 0x5#4 (regBits dr) (regBits sr1) (regBits sr2)
    exact .andReg op hdr hsr1 mode hsr2
  | andImm dr sr1 imm =>
    obtain ⟨op, hdr, hsr1, mode, himm⟩ := bits_immediateForm 0x5#4 (regBits dr) (regBits sr1) imm
    exact .andImm op hdr hsr1 mode himm
  | ldr dr base off =>
    obtain ⟨op, hdr, hbase, hoff⟩ := bits_offset6 0x6#4 (regBits dr) (regBits base) off
    exact .ldr op hdr hbase hoff
  | str sr base off =>
    obtain ⟨op, hsr, hbase, hoff⟩ := bits_offset6 0x7#4 (regBits sr) (regBits base) off
    exact .str op hsr hbase hoff
  | rti => exact .rti rfl
  | not dr sr =>
    obtain ⟨op, hdr, hsr, -⟩ := bits_offset6 0x9#4 (regBits dr) (regBits sr) 0b111111#6
    exact .not op hdr hsr
  | ldi dr off =>
    obtain ⟨op, hdr, hoff⟩ := bits_offset9 0xA#4 (regBits dr) off
    exact .ldi op hdr hoff
  | sti sr off =>
    obtain ⟨op, hsr, hoff⟩ := bits_offset9 0xB#4 (regBits sr) off
    exact .sti op hsr hoff
  | jmp base =>
    obtain ⟨op, -, hbase, -⟩ := bits_offset6 0xC#4 0b000#3 (regBits base) 0b000000#6
    exact .jmp op hbase (bne_iff_ne.mp h)
  | reserved => exact .reserved rfl
  | lea dr off =>
    obtain ⟨op, hdr, hoff⟩ := bits_offset9 0xE#4 (regBits dr) off
    exact .lea op hdr hoff
  | trap v =>
    have op : bits (0xF0#8 ++ v) 12 4 = 0xF#4 := extractLsb'_append_above (by decide) (by decide)
    exact .trap op extractLsb'_append_eq_right (by simpa [Instr.wellFormed] using h)
  | ret => exact .ret rfl rfl
  | getc => exact .getc rfl rfl
  | out => exact .out rfl rfl
  | puts => exact .puts rfl rfl
  | inp => exact .inp rfl rfl
  | putsp => exact .putsp rfl rfl
  | halt => exact .halt rfl rfl

/-- Settles O2: the encoder writes the fields of the instruction, and the decoder reads them. -/
theorem decodeOfEncodeGivesBack : Obligations.DecodeOfEncodeGivesBack :=
  fun _ hwf => (encodes_encode hwf).decode_eq

/-! ### Every word is a word of what it decodes to -/

/-- The opcodes that have two forms, or names of their own, by the field that chooses. -/
theorem encodes_decodeAdd {w : Word} (op : bits w 12 4 = 0x1#4) : Encodes w (decodeAdd w) := by
  unfold decodeAdd
  cases h : bit w 5
  · exact .addReg op rfl rfl (by rw [bits_one, h]) rfl
  · exact .addImm op rfl rfl (by rw [bits_one, h]) rfl

theorem encodes_decodeAnd {w : Word} (op : bits w 12 4 = 0x5#4) : Encodes w (decodeAnd w) := by
  unfold decodeAnd
  cases h : bit w 5
  · exact .andReg op rfl rfl (by rw [bits_one, h]) rfl
  · exact .andImm op rfl rfl (by rw [bits_one, h]) rfl

theorem encodes_decodeJsr {w : Word} (op : bits w 12 4 = 0x4#4) : Encodes w (decodeJsr w) := by
  unfold decodeJsr
  cases h : bit w 11
  · exact .jsrr op (by rw [bits_one, h]) rfl
  · exact .jsr op (by rw [bits_one, h]) rfl

theorem encodes_decodeJmp {w : Word} (op : bits w 12 4 = 0xC#4) : Encodes w (decodeJmp w) := by
  unfold decodeJmp
  split
  · next h => exact .ret op (congrArg regBits h)
  · next h => exact .jmp op rfl h

theorem encodes_decodeVector {w : Word} (op : bits w 12 4 = 0xF#4) : Encodes w (decodeVector (bits w 0 8)) := by
  unfold decodeVector
  split
  · next h => exact .getc op (BitVec.eq_of_toNat_eq h)
  · next h => exact .out op (BitVec.eq_of_toNat_eq h)
  · next h => exact .puts op (BitVec.eq_of_toNat_eq h)
  · next h => exact .inp op (BitVec.eq_of_toNat_eq h)
  · next h => exact .putsp op (BitVec.eq_of_toNat_eq h)
  · next h => exact .halt op (BitVec.eq_of_toNat_eq h)
  · simp only [imp_false] at *
    exact .trap op rfl (by omega)

/-- Every word has the fields of the instruction it decodes to (R69). -/
theorem encodes_decode (w : Word) : Encodes w (decode w) := by
  unfold decode
  split
  · next op => exact .br (BitVec.eq_of_toNat_eq op) (bits_one w 11) (bits_one w 10) (bits_one w 9) rfl
  · next op => exact encodes_decodeAdd (BitVec.eq_of_toNat_eq op)
  · next op => exact .ld (BitVec.eq_of_toNat_eq op) rfl rfl
  · next op => exact .st (BitVec.eq_of_toNat_eq op) rfl rfl
  · next op => exact encodes_decodeJsr (BitVec.eq_of_toNat_eq op)
  · next op => exact encodes_decodeAnd (BitVec.eq_of_toNat_eq op)
  · next op => exact .ldr (BitVec.eq_of_toNat_eq op) rfl rfl rfl
  · next op => exact .str (BitVec.eq_of_toNat_eq op) rfl rfl rfl
  · next op => exact .rti (BitVec.eq_of_toNat_eq op)
  · next op => exact .not (BitVec.eq_of_toNat_eq op) rfl rfl
  · next op => exact .ldi (BitVec.eq_of_toNat_eq op) rfl rfl
  · next op => exact .sti (BitVec.eq_of_toNat_eq op) rfl rfl
  · next op => exact encodes_decodeJmp (BitVec.eq_of_toNat_eq op)
  · next op => exact .reserved (BitVec.eq_of_toNat_eq op)
  · next op => exact .lea (BitVec.eq_of_toNat_eq op) rfl rfl
  · have hlt := (bits w 12 4).isLt
    simp only [imp_false] at *
    have hop : (bits w 12 4).toNat = 15 := by omega
    exact encodes_decodeVector (BitVec.eq_of_toNat_eq hop)

/-- Only well-formed instructions have words. -/
theorem Encodes.wellFormed {w : Word} {i : Instr} (h : Encodes w i) : i.wellFormed = true := by
  cases h with
  | jmp op hbase named => exact bne_iff_ne.mpr named
  | trap op hv unknown => simpa [Instr.wellFormed] using unknown
  | _ => rfl

/-- A word with a row's opcode, where the row compares the opcode alone. -/
theorem and_opcode_mask {w row : Word} (op : bits w 12 4 = bits row 12 4) : w &&& 0xF000 = row &&& 0xF000 :=
  and_eq_and_of_bits 0xF000 [(12, 4)] (by decide) (by simpa using op)

/-- A word with a row's opcode and one more field, where the row compares these two. -/
theorem and_opcode_field_mask {w row : Word} {lo n : Nat} (m : Word)
    (hcover : ∀ k < 16, bit m k = true → ∃ f ∈ [(12, 4), (lo, n)], f.1 ≤ k ∧ k < f.1 + f.2)
    (op : bits w 12 4 = bits row 12 4) (hf : bits w lo n = bits row lo n) : w &&& m = row &&& m :=
  and_eq_and_of_bits m [(12, 4), (lo, n)] hcover (by simpa using ⟨op, hf⟩)

/-- A word of an instruction matches the instruction's row of the opcode table (R70). -/
theorem Encodes.matches_row {w : Word} {i : Instr} (h : Encodes w i) : w &&& tableMask i = tableMatch i := by
  cases h with
  | br op => exact and_opcode_mask (row := 0x0000) op
  | addReg op _ _ mode => exact and_opcode_field_mask (row := 0x1000) 0xF020 (by decide) op mode
  | addImm op _ _ mode => exact and_opcode_field_mask (row := 0x1020) 0xF020 (by decide) op mode
  | ld op => exact and_opcode_mask (row := 0x2000) op
  | st op => exact and_opcode_mask (row := 0x3000) op
  | jsr op mode => exact and_opcode_field_mask (row := 0x4800) 0xF800 (by decide) op mode
  | jsrr op mode => exact and_opcode_field_mask (row := 0x4000) 0xF800 (by decide) op mode
  | andReg op _ _ mode => exact and_opcode_field_mask (row := 0x5000) 0xF020 (by decide) op mode
  | andImm op _ _ mode => exact and_opcode_field_mask (row := 0x5020) 0xF020 (by decide) op mode
  | ldr op => exact and_opcode_mask (row := 0x6000) op
  | str op => exact and_opcode_mask (row := 0x7000) op
  | rti op => exact and_opcode_mask (row := 0x8000) op
  | not op => exact and_opcode_mask (row := 0x9000) op
  | ldi op => exact and_opcode_mask (row := 0xA000) op
  | sti op => exact and_opcode_mask (row := 0xB000) op
  | jmp op => exact and_opcode_mask (row := 0xC000) op
  | ret op hbase => exact and_opcode_field_mask (row := 0xC1C0) 0xF1C0 (by decide) op hbase
  | reserved op => exact and_opcode_mask (row := 0xD000) op
  | lea op => exact and_opcode_mask (row := 0xE000) op
  | trap op => exact and_opcode_mask (row := 0xF000) op
  | getc op hv => exact and_opcode_field_mask (row := 0xF020) 0xF0FF (by decide) op hv
  | out op hv => exact and_opcode_field_mask (row := 0xF021) 0xF0FF (by decide) op hv
  | puts op hv => exact and_opcode_field_mask (row := 0xF022) 0xF0FF (by decide) op hv
  | inp op hv => exact and_opcode_field_mask (row := 0xF023) 0xF0FF (by decide) op hv
  | putsp op hv => exact and_opcode_field_mask (row := 0xF024) 0xF0FF (by decide) op hv
  | halt op hv => exact and_opcode_field_mask (row := 0xF025) 0xF0FF (by decide) op hv

/-- Words of one instruction agree on every bit its format uses: the fields cover those bits. -/
theorem Encodes.agree {v w : Word} {i : Instr} (hv : Encodes v i) (hw : Encodes w i) :
    v &&& usedBits i = w &&& usedBits i := by
  cases hv with
  | br op hn hz hp hoff =>
    cases hw with | br op' hn' hz' hp' hoff' =>
      exact and_eq_and_of_bits 0xFFFF [(12, 4), (11, 1), (10, 1), (9, 1), (0, 9)] (by decide)
        (by simp [op, hn, hz, hp, hoff, op', hn', hz', hp', hoff'])
  | addReg op hdr hsr1 mode hsr2 =>
    cases hw with | addReg op' hdr' hsr1' mode' hsr2' =>
      exact and_eq_and_of_bits 0xFFE7 [(12, 4), (9, 3), (6, 3), (5, 1), (0, 3)] (by decide)
        (by simp [op, hdr, hsr1, mode, hsr2, op', hdr', hsr1', mode', hsr2'])
  | addImm op hdr hsr1 mode himm =>
    cases hw with | addImm op' hdr' hsr1' mode' himm' =>
      exact and_eq_and_of_bits 0xFFFF [(12, 4), (9, 3), (6, 3), (5, 1), (0, 5)] (by decide)
        (by simp [op, hdr, hsr1, mode, himm, op', hdr', hsr1', mode', himm'])
  | ld op hdr hoff =>
    cases hw with | ld op' hdr' hoff' =>
      exact and_eq_and_of_bits 0xFFFF [(12, 4), (9, 3), (0, 9)] (by decide)
        (by simp [op, hdr, hoff, op', hdr', hoff'])
  | st op hsr hoff =>
    cases hw with | st op' hsr' hoff' =>
      exact and_eq_and_of_bits 0xFFFF [(12, 4), (9, 3), (0, 9)] (by decide)
        (by simp [op, hsr, hoff, op', hsr', hoff'])
  | jsr op mode hoff =>
    cases hw with | jsr op' mode' hoff' =>
      exact and_eq_and_of_bits 0xFFFF [(12, 4), (11, 1), (0, 11)] (by decide)
        (by simp [op, mode, hoff, op', mode', hoff'])
  | jsrr op mode hbase =>
    cases hw with | jsrr op' mode' hbase' =>
      exact and_eq_and_of_bits 0xF9C0 [(12, 4), (11, 1), (6, 3)] (by decide)
        (by simp [op, mode, hbase, op', mode', hbase'])
  | andReg op hdr hsr1 mode hsr2 =>
    cases hw with | andReg op' hdr' hsr1' mode' hsr2' =>
      exact and_eq_and_of_bits 0xFFE7 [(12, 4), (9, 3), (6, 3), (5, 1), (0, 3)] (by decide)
        (by simp [op, hdr, hsr1, mode, hsr2, op', hdr', hsr1', mode', hsr2'])
  | andImm op hdr hsr1 mode himm =>
    cases hw with | andImm op' hdr' hsr1' mode' himm' =>
      exact and_eq_and_of_bits 0xFFFF [(12, 4), (9, 3), (6, 3), (5, 1), (0, 5)] (by decide)
        (by simp [op, hdr, hsr1, mode, himm, op', hdr', hsr1', mode', himm'])
  | ldr op hdr hbase hoff =>
    cases hw with | ldr op' hdr' hbase' hoff' =>
      exact and_eq_and_of_bits 0xFFFF [(12, 4), (9, 3), (6, 3), (0, 6)] (by decide)
        (by simp [op, hdr, hbase, hoff, op', hdr', hbase', hoff'])
  | str op hsr hbase hoff =>
    cases hw with | str op' hsr' hbase' hoff' =>
      exact and_eq_and_of_bits 0xFFFF [(12, 4), (9, 3), (6, 3), (0, 6)] (by decide)
        (by simp [op, hsr, hbase, hoff, op', hsr', hbase', hoff'])
  | rti op =>
    cases hw with | rti op' =>
      exact and_eq_and_of_bits 0xF000 [(12, 4)] (by decide)
        (by simp [op, op'])
  | not op hdr hsr =>
    cases hw with | not op' hdr' hsr' =>
      exact and_eq_and_of_bits 0xFFC0 [(12, 4), (9, 3), (6, 3)] (by decide)
        (by simp [op, hdr, hsr, op', hdr', hsr'])
  | ldi op hdr hoff =>
    cases hw with | ldi op' hdr' hoff' =>
      exact and_eq_and_of_bits 0xFFFF [(12, 4), (9, 3), (0, 9)] (by decide)
        (by simp [op, hdr, hoff, op', hdr', hoff'])
  | sti op hsr hoff =>
    cases hw with | sti op' hsr' hoff' =>
      exact and_eq_and_of_bits 0xFFFF [(12, 4), (9, 3), (0, 9)] (by decide)
        (by simp [op, hsr, hoff, op', hsr', hoff'])
  | jmp op hbase named =>
    cases hw with | jmp op' hbase' named' =>
      exact and_eq_and_of_bits 0xF1C0 [(12, 4), (6, 3)] (by decide)
        (by simp [op, hbase, op', hbase'])
  | ret op hbase =>
    cases hw with | ret op' hbase' =>
      exact and_eq_and_of_bits 0xF1C0 [(12, 4), (6, 3)] (by decide)
        (by simp [op, hbase, op', hbase'])
  | reserved op =>
    cases hw with | reserved op' =>
      exact and_eq_and_of_bits 0xF000 [(12, 4)] (by decide)
        (by simp [op, op'])
  | lea op hdr hoff =>
    cases hw with | lea op' hdr' hoff' =>
      exact and_eq_and_of_bits 0xFFFF [(12, 4), (9, 3), (0, 9)] (by decide)
        (by simp [op, hdr, hoff, op', hdr', hoff'])
  | trap op hvect unknown =>
    cases hw with | trap op' hvect' unknown' =>
      exact and_eq_and_of_bits 0xF0FF [(12, 4), (0, 8)] (by decide)
        (by simp [op, hvect, op', hvect'])
  | getc op hvect =>
    cases hw with | getc op' hvect' =>
      exact and_eq_and_of_bits 0xF0FF [(12, 4), (0, 8)] (by decide)
        (by simp [op, hvect, op', hvect'])
  | out op hvect =>
    cases hw with | out op' hvect' =>
      exact and_eq_and_of_bits 0xF0FF [(12, 4), (0, 8)] (by decide)
        (by simp [op, hvect, op', hvect'])
  | puts op hvect =>
    cases hw with | puts op' hvect' =>
      exact and_eq_and_of_bits 0xF0FF [(12, 4), (0, 8)] (by decide)
        (by simp [op, hvect, op', hvect'])
  | inp op hvect =>
    cases hw with | inp op' hvect' =>
      exact and_eq_and_of_bits 0xF0FF [(12, 4), (0, 8)] (by decide)
        (by simp [op, hvect, op', hvect'])
  | putsp op hvect =>
    cases hw with | putsp op' hvect' =>
      exact and_eq_and_of_bits 0xF0FF [(12, 4), (0, 8)] (by decide)
        (by simp [op, hvect, op', hvect'])
  | halt op hvect =>
    cases hw with | halt op' hvect' =>
      exact and_eq_and_of_bits 0xF0FF [(12, 4), (0, 8)] (by decide)
        (by simp [op, hvect, op', hvect'])

/-- A word that agrees with a word of an instruction on every bit the format uses is a word of it too. -/
theorem Encodes.of_agree {v w : Word} {i : Instr} (hw : Encodes w i) (h : v &&& usedBits i = w &&& usedBits i) :
    Encodes v i := by
  have field (m : Word) (hu : usedBits i = m) {lo n : Nat} {f : BitVec n} (hm : bits m lo n = BitVec.allOnes n)
      (hf : bits w lo n = f) : bits v lo n = f := by
    subst hu
    rw [bits_of_mask hm h, bits_and, hm, BitVec.and_allOnes, hf]
  cases hw with
  | br op hn hz hp hoff =>
    have field := @field 0xFFFF rfl
    exact .br (field rfl op) (field rfl hn) (field rfl hz) (field rfl hp) (field rfl hoff)
  | addReg op hdr hsr1 mode hsr2 =>
    have field := @field 0xFFE7 rfl
    exact .addReg (field rfl op) (field rfl hdr) (field rfl hsr1) (field rfl mode) (field rfl hsr2)
  | addImm op hdr hsr1 mode himm =>
    have field := @field 0xFFFF rfl
    exact .addImm (field rfl op) (field rfl hdr) (field rfl hsr1) (field rfl mode) (field rfl himm)
  | ld op hdr hoff =>
    have field := @field 0xFFFF rfl
    exact .ld (field rfl op) (field rfl hdr) (field rfl hoff)
  | st op hsr hoff =>
    have field := @field 0xFFFF rfl
    exact .st (field rfl op) (field rfl hsr) (field rfl hoff)
  | jsr op mode hoff =>
    have field := @field 0xFFFF rfl
    exact .jsr (field rfl op) (field rfl mode) (field rfl hoff)
  | jsrr op mode hbase =>
    have field := @field 0xF9C0 rfl
    exact .jsrr (field rfl op) (field rfl mode) (field rfl hbase)
  | andReg op hdr hsr1 mode hsr2 =>
    have field := @field 0xFFE7 rfl
    exact .andReg (field rfl op) (field rfl hdr) (field rfl hsr1) (field rfl mode) (field rfl hsr2)
  | andImm op hdr hsr1 mode himm =>
    have field := @field 0xFFFF rfl
    exact .andImm (field rfl op) (field rfl hdr) (field rfl hsr1) (field rfl mode) (field rfl himm)
  | ldr op hdr hbase hoff =>
    have field := @field 0xFFFF rfl
    exact .ldr (field rfl op) (field rfl hdr) (field rfl hbase) (field rfl hoff)
  | str op hsr hbase hoff =>
    have field := @field 0xFFFF rfl
    exact .str (field rfl op) (field rfl hsr) (field rfl hbase) (field rfl hoff)
  | rti op =>
    have field := @field 0xF000 rfl
    exact .rti (field rfl op)
  | not op hdr hsr =>
    have field := @field 0xFFC0 rfl
    exact .not (field rfl op) (field rfl hdr) (field rfl hsr)
  | ldi op hdr hoff =>
    have field := @field 0xFFFF rfl
    exact .ldi (field rfl op) (field rfl hdr) (field rfl hoff)
  | sti op hsr hoff =>
    have field := @field 0xFFFF rfl
    exact .sti (field rfl op) (field rfl hsr) (field rfl hoff)
  | jmp op hbase named =>
    have field := @field 0xF1C0 rfl
    exact .jmp (field rfl op) (field rfl hbase) named
  | ret op hbase =>
    have field := @field 0xF1C0 rfl
    exact .ret (field rfl op) (field rfl hbase)
  | reserved op =>
    have field := @field 0xF000 rfl
    exact .reserved (field rfl op)
  | lea op hdr hoff =>
    have field := @field 0xFFFF rfl
    exact .lea (field rfl op) (field rfl hdr) (field rfl hoff)
  | trap op hv unknown =>
    have field := @field 0xF0FF rfl
    exact .trap (field rfl op) (field rfl hv) unknown
  | getc op hv =>
    have field := @field 0xF0FF rfl
    exact .getc (field rfl op) (field rfl hv)
  | out op hv =>
    have field := @field 0xF0FF rfl
    exact .out (field rfl op) (field rfl hv)
  | puts op hv =>
    have field := @field 0xF0FF rfl
    exact .puts (field rfl op) (field rfl hv)
  | inp op hv =>
    have field := @field 0xF0FF rfl
    exact .inp (field rfl op) (field rfl hv)
  | putsp op hv =>
    have field := @field 0xF0FF rfl
    exact .putsp (field rfl op) (field rfl hv)
  | halt op hv =>
    have field := @field 0xF0FF rfl
    exact .halt (field rfl op) (field rfl hv)

/-- Settles O3: a word has the fields of what it decodes to, and so has the encoder's word of that. -/
theorem everyWordDecodesToItsTableRow : Obligations.EveryWordDecodesToItsTableRow := by
  intro w
  have hw : Encodes w (decode w) := encodes_decode w
  exact ⟨hw.wellFormed, hw.matches_row, (encodes_encode hw.wellFormed).agree hw⟩

/-- Settles O4: the word that agrees on the used bits has the same fields. -/
theorem unusedBitsHaveNoEffect : Obligations.UnusedBitsHaveNoEffect :=
  fun _ w h => ((encodes_decode w).of_agree h).decode_eq

/-- Settles O1: nine closed words, each evaluated by the decoder. -/
theorem decodeReadsTheVectorWords : Obligations.DecodeReadsTheVectorWords := by
  unfold Obligations.DecodeReadsTheVectorWords
  decide

end Sys2Proof
end

section
/-! PROOFS. The effect of each instruction that is no TRAP (40_operate.md to 42_control.md), one equation a form, and
O16 to O20; then one step at each of their words, O10 to O14. -/

namespace Sys2Proof.Machine

/-! ### Effects -/

/-- Settles O16: each operate instruction is one `writeResult`. -/
theorem operateInstructionsComplete : Obligations.OperateInstructionsComplete :=
  fun _ _ _ _ _ => ⟨rfl, rfl, rfl, rfl, rfl⟩

/-- Settles O17: each load and LEA is one `writeResult`. -/
theorem loadsAndLeaComplete : Obligations.LoadsAndLeaComplete :=
  fun _ _ _ _ _ => ⟨rfl, rfl, rfl, rfl⟩

/-- Settles O20: RTI and the reserved opcode are one `raiseFault` each. -/
theorem rtiAndReservedEnterFaulted : Obligations.RtiAndReservedEnterFaulted :=
  fun s => ⟨exec_rti s, exec_reserved s⟩

/-- One store to a canonical memory, as a memory: the word stored at its address and every other word as before. -/
theorem memWrite_reads {s : State} (h : s.mem.wf) (ea v : Word) :
    ∃ m : Memory, s.memWrite ea v = { s with mem := m } ∧ m.read ea.toNat = v ∧
      ∀ a : Word, a ≠ ea → m.read a.toNat = s.memRead a := by
  refine ⟨s.mem.write ea.toNat v, rfl, ?_, fun a ha => ?_⟩
  · rw [Memory.read_write h, if_pos rfl]
  · exact memRead_memWrite_other s ha v

/-- Settles O18: each store is one `memWrite`. -/
theorem storesCompleteAndWriteOneWord : Obligations.StoresCompleteAndWriteOneWord := by
  intro s sr base off9 off6 hmem rel stored
  have write (ea : Word) : stored (.next (s.memWrite ea (s.getReg sr))) ea := by
    obtain ⟨m, hm, hreads⟩ := memWrite_reads hmem ea (s.getReg sr)
    exact ⟨m, congrArg Host.Outcome.next hm, hreads⟩
  exact ⟨write rel, write (s.memRead rel), write (s.getReg base + sext off6)⟩

/-- The condition of BR, as R66 words it. -/
theorem ccMeets_iff (n z p : Bool) (c : CC) :
    ccMeets n z p c = true ↔ (n = true ∧ c = .N) ∨ (z = true ∧ c = .Z) ∨ (p = true ∧ c = .P) := by
  cases c <;> simp [ccMeets]

/-- BR jumps to its target when a flag of its mask is active (R150). -/
theorem exec_br_taken {n z p : Bool} {off : BitVec 9} {s : State}
    (h : (n = true ∧ s.cc = .N) ∨ (z = true ∧ s.cc = .Z) ∨ (p = true ∧ s.cc = .P)) :
    exec (.br n z p off) s = .next { s with pc := s.pc + sext off } := by
  simp only [exec, execBr, if_pos ((ccMeets_iff n z p s.cc).mpr h)]
  rfl

/-- BR changes nothing when no flag of its mask is active. -/
theorem exec_br_not_taken {n z p : Bool} {off : BitVec 9} {s : State}
    (h : ¬((n = true ∧ s.cc = .N) ∨ (z = true ∧ s.cc = .Z) ∨ (p = true ∧ s.cc = .P))) :
    exec (.br n z p off) s = .next s := by
  simp only [exec, execBr, if_neg (h ∘ (ccMeets_iff n z p s.cc).mp)]

/-- Settles O19: BR by its condition, which 000 never meets and 111 always; every other transfer is one `setPc` or
`call`. -/
theorem controlTransfersComplete : Obligations.ControlTransfersComplete := by
  intro s n z p off9 off11 base
  refine ⟨?_, exec_br_not_taken (by simp), exec_br_taken (by cases s.cc <;> simp), rfl, rfl, rfl, rfl⟩
  split
  · next h => exact exec_br_taken h
  · next h => exact exec_br_not_taken h

/-! ### Steps -/

/-- One step at a word runs the instruction whose fields the word has, after the fetch increment (R223). -/
theorem step_of_encodes {s : State} {w : Word} {i : Instr} (hs : s.fetches) (hw : s.memRead s.pc = w)
    (h : Encodes w i) : step s = exec i s.advance := by
  rw [step_fetches hs, hw, h.decode_eq]

/-- Settles O10: the row's mask fixes opcode and mode, and the instruction's effect is O16. -/
theorem stepAtOperateWords : Obligations.StepAtOperateWords := by
  intro s w hs hw dr a b imm done
  obtain ⟨hadd, haddi, hand, handi, hnot⟩ := operateInstructionsComplete s.advance dr (regOf (bits w 6 3))
    (regOf (bits w 0 3)) (bits w 0 5)
  refine ⟨fun h => ?_, fun h => ?_, fun h => ?_, fun h => ?_, fun h => ?_⟩
  · exact (step_of_encodes hs hw (.addReg (opcode_of_mask rfl h) rfl rfl (bits_of_mask rfl h) rfl)).trans hadd
  · exact (step_of_encodes hs hw (.addImm (opcode_of_mask rfl h) rfl rfl (bits_of_mask rfl h) rfl)).trans haddi
  · exact (step_of_encodes hs hw (.andReg (opcode_of_mask rfl h) rfl rfl (bits_of_mask rfl h) rfl)).trans hand
  · exact (step_of_encodes hs hw (.andImm (opcode_of_mask rfl h) rfl rfl (bits_of_mask rfl h) rfl)).trans handi
  · exact (step_of_encodes hs hw (.not (opcode_of_mask rfl h) rfl rfl)).trans hnot

/-- Settles O11: the row's mask fixes the opcode, and the instruction's effect is O17. -/
theorem stepAtLoadWords : Obligations.StepAtLoadWords := by
  intro s w hs hw dr rel base done
  obtain ⟨hld, hldi, hldr, hlea⟩ := loadsAndLeaComplete s.advance dr (regOf (bits w 6 3)) (bits w 0 9) (bits w 0 6)
  refine ⟨fun h => ?_, fun h => ?_, fun h => ?_, fun h => ?_⟩
  · exact (step_of_encodes hs hw (.ld (opcode_of_mask rfl h) rfl rfl)).trans hld
  · exact (step_of_encodes hs hw (.ldi (opcode_of_mask rfl h) rfl rfl)).trans hldi
  · exact (step_of_encodes hs hw (.ldr (opcode_of_mask rfl h) rfl rfl rfl)).trans hldr
  · exact (step_of_encodes hs hw (.lea (opcode_of_mask rfl h) rfl rfl)).trans hlea

/-- Settles O12: the row's mask fixes the opcode, and the instruction's effect is O18. -/
theorem stepAtStoreWords : Obligations.StepAtStoreWords := by
  intro s w hmem hs hw v rel base stored
  obtain ⟨hst, hsti, hstr⟩ := storesCompleteAndWriteOneWord s.advance (regOf (bits w 9 3)) (regOf (bits w 6 3))
    (bits w 0 9) (bits w 0 6) hmem
  refine ⟨fun h => ?_, fun h => ?_, fun h => ?_⟩
  · obtain ⟨m, hm, hreads⟩ := hst
    exact ⟨m, (step_of_encodes hs hw (.st (opcode_of_mask rfl h) rfl rfl)).trans hm, hreads⟩
  · obtain ⟨m, hm, hreads⟩ := hsti
    exact ⟨m, (step_of_encodes hs hw (.sti (opcode_of_mask rfl h) rfl rfl)).trans hm, hreads⟩
  · obtain ⟨m, hm, hreads⟩ := hstr
    exact ⟨m, (step_of_encodes hs hw (.str (opcode_of_mask rfl h) rfl rfl rfl)).trans hm, hreads⟩

/-- Settles O13: the mask bits of the word are those of the BR it encodes. -/
theorem stepAtBranchWords : Obligations.StepAtBranchWords := by
  intro s w hs hw h taken
  have hbr : Encodes w (.br (bit w 11) (bit w 10) (bit w 9) (bits w 0 9)) :=
    .br (opcode_of_mask rfl h) (bits_one w 11) (bits_one w 10) (bits_one w 9) rfl
  have hstep : step s = exec _ s.advance := step_of_encodes hs hw hbr
  exact ⟨fun ht => hstep.trans (exec_br_taken ht), fun ht => hstep.trans (exec_br_not_taken ht)⟩

/-- Settles O14: the row's mask fixes opcode and mode. JMP through R7 is RET, which reads R7 in the same way. -/
theorem stepAtJumpAndCallWords : Obligations.StepAtJumpAndCallWords := by
  intro s w hs hw base
  refine ⟨fun h => ?_, fun h => ?_, fun h => ?_⟩
  · by_cases h7 : regOf (bits w 6 3) = 7
    · have hbase : base = s.getReg 7 := congrArg s.getReg h7
      rw [hbase]
      exact step_of_encodes hs hw (.ret (opcode_of_mask rfl h) (congrArg regBits h7))
    · exact step_of_encodes hs hw (.jmp (opcode_of_mask rfl h) rfl h7)
  · exact step_of_encodes hs hw (.jsr (opcode_of_mask rfl h) (bits_of_mask rfl h) rfl)
  · exact step_of_encodes hs hw (.jsrr (opcode_of_mask rfl h) (bits_of_mask rfl h) rfl)

end Sys2Proof.Machine
end

section
/-! PROOFS. The trap services that read, write one byte or halt (43_trap.md R170 to R180): the answer of each to each
answer of the console, O21 to O24, O30, O31 and O39, and one step at a TRAP word, O15. -/

namespace Sys2Proof.Machine

/-! ### Console calls whose answer is known -/

/-- A console about to fail accepts no write. -/
theorem not_acceptsWrites_of_full {s : State} (h : s.writesUntilFail = some 0) : ¬ s.acceptsWrites 1 :=
  fun ha => absurd (ha 0 h) (by decide)

theorem consoleWrite_ok {s : State} (h : s.acceptsWrites 1) (b : Byte) : s.consoleWrite b = .ok (s.wrote [b]) := by
  rcases consoleWrite_cases s b with ⟨-, hw⟩ | ⟨h0, -⟩
  · exact hw
  · exact absurd h (not_acceptsWrites_of_full h0)

theorem consoleWrite_refused {s : State} (h : s.writesUntilFail = some 0) (b : Byte) :
    s.consoleWrite b = .failed s := by
  rcases consoleWrite_cases s b with ⟨ha, -⟩ | ⟨-, hw⟩
  · exact absurd ha (not_acceptsWrites_of_full h)
  · exact hw

theorem consoleRead_empty {s : State} (h : s.consoleIn = []) (svc : Service) (k : State → Byte → State) :
    s.consoleRead svc k = { s with wait := some svc } := by
  simp only [State.consoleRead, h]

theorem consoleRead_byte {s : State} {b : Byte} {rest : List ReadReply} (h : s.consoleIn = .byte b :: rest)
    (svc : Service) (k : State → Byte → State) :
    s.consoleRead svc k = k { s with consoleIn := rest, wait := none } b := by
  simp only [State.consoleRead, h]

theorem consoleRead_failed {s : State} {rest : List ReadReply} (h : s.consoleIn = .failed :: rest)
    (svc : Service) (k : State → Byte → State) :
    s.consoleRead svc k = { s with consoleIn := rest, wait := none, run := .faulted (.trapError .io) } := by
  simp only [State.consoleRead, h]
  rfl

/-- The state after exactly as many writes as the console accepts. -/
theorem wrote_all {s : State} {bs : List Byte} (h : s.writesUntilFail = some bs.length) :
    s.wrote bs = { s with consoleOut := s.consoleOut ++ bs, writesUntilFail := some 0 } := by
  rw [State.wrote, h, Option.map_some, Nat.sub_self]

/-! ### GETC, OUT and HALT -/

/-- Settles O21: GETC is one console read. -/
theorem getcReadsOneByte : Obligations.GetcReadsOneByte :=
  fun _ => ⟨fun _ _ h => congrArg Host.Outcome.next (consoleRead_byte h _ _),
    fun _ h => congrArg Host.Outcome.next (consoleRead_failed h _ _),
    fun h => congrArg Host.Outcome.next (consoleRead_empty h _ _)⟩

/-- Settles O22: OUT is one console write. -/
theorem outWritesTheLowByte : Obligations.OutWritesTheLowByte := by
  intro s
  constructor
  · intro ha
    rw [exec, execOut, consoleWrite_ok ha]
    rfl
  · intro h0
    rw [exec, execOut, consoleWrite_refused h0]
    rfl

/-- HALT has nothing to write and halts. -/
theorem exec_halt (s : State) : exec .halt s = .next s.halt := rfl

/-- Settles O30: HALT answers its halted state, which has no step. -/
theorem haltStopsTheMachine : Obligations.HaltStopsTheMachine := by
  intro s
  refine ⟨exec_halt s, fun t ht => ?_⟩
  obtain rfl : s.halt = t := Host.Outcome.next.inj ((exec_halt s).symm.trans ht)
  exact step_halted rfl

/-! ### IN -/

/-- IN's read and echo, when the console supplies a byte and accepts the echo. -/
theorem inRead_byte {s : State} {b : Byte} {rest : List ReadReply} (h : s.consoleIn = .byte b :: rest)
    (ha : s.acceptsWrites 1) :
    s.inRead = { s.wrote [b] with regs := s.regs.set 0 (zext b), consoleIn := rest, wait := none } := by
  rw [State.inRead, consoleRead_byte h, consoleWrite_ok (s := { s with consoleIn := rest, wait := none }) ha]
  rfl

/-- IN's read and echo, when the console supplies a byte and refuses the echo. -/
theorem inRead_refused {s : State} {b : Byte} {rest : List ReadReply} (h : s.consoleIn = .byte b :: rest)
    (h0 : s.writesUntilFail = some 0) :
    s.inRead = { s with consoleIn := rest, wait := none, run := .faulted (.trapError .io) } := by
  rw [State.inRead, consoleRead_byte h, consoleWrite_refused (s := { s with consoleIn := rest, wait := none }) h0]
  rfl

/-- IN goes on to its read when the console accepts the prompt. -/
theorem inWith_ok {s : State} {prompt : List Byte} (h : s.acceptsWrites prompt.length) :
    s.inWith prompt = (s.wrote prompt).inRead := by
  rw [State.inWith, consoleWriteAll_ok h]
  rfl

/-- IN faults at the prompt byte the console refuses, before it reads. -/
theorem inWith_refused {s : State} {prompt : List Byte} {k : Nat} (h : s.writesUntilFail = some k)
    (hk : k < prompt.length) : s.inWith prompt = (s.wrote (prompt.take k)).ioFault := by
  rcases inWith_cases s prompt with ⟨ha, -⟩ | ⟨j, hj, -, hin⟩
  · exact absurd (ha k h) (by omega)
  · obtain rfl : k = j := Option.some.inj (h.symm.trans hj)
    exact hin

/-- Settles O23: the prompt, then the read and echo. -/
theorem inPromptsReadsAndEchoes : Obligations.InPromptsReadsAndEchoes := by
  intro s b rest hin ha
  have hprompt : s.acceptsWrites inPrompt.length := fun k hk => Nat.le_of_succ_le (ha k hk)
  have hread : s.inWith inPrompt = _ :=
    (inWith_ok hprompt).trans (inRead_byte (s := s.wrote inPrompt) hin (acceptsWrites_wrote ha))
  rw [wrote_append] at hread
  exact congrArg Host.Outcome.next hread

/-- Settles O24: the prompt, the read and the echo in order, each where it is the first to fail or to wait. -/
theorem inFailsAtItsFirstFailingCall : Obligations.InFailsAtItsFirstFailingCall := by
  refine ⟨fun _ => rfl, fun s prompt => ⟨fun k hk hlt => ?_, fun b rest hfull hin => ?_, fun ha hin => ?_,
    fun rest ha hin => ?_⟩⟩
  · have hlen : (prompt.take k).length = k := List.length_take_of_le hlt.le
    rw [inWith_refused hk hlt, wrote_all (by rw [hk, hlen])]
    rfl
  · have ha : s.acceptsWrites prompt.length := fun k hk => (Option.some.inj (hfull.symm.trans hk)).le
    have h0 : (s.wrote prompt).writesUntilFail = some 0 := by rw [wrote_all hfull]
    rw [inWith_ok ha, inRead_refused (s := s.wrote prompt) hin h0, wrote_all hfull]
  · rw [inWith_ok ha]
    exact consoleRead_empty (s := s.wrote prompt) hin .inp _
  · rw [inWith_ok ha]
    exact consoleRead_failed (s := s.wrote prompt) hin .inp _

/-! ### The answer to a waiting service -/

/-- Settles O39: the reply is the one the next step takes. -/
theorem aReplyCompletesTheWaitingService : Obligations.AReplyCompletesTheWaitingService := by
  intro s b hrun hin
  have hreply : (s.consoleReply (.byte b)).consoleIn = [.byte b] := by rw [consoleReply_consoleIn, hin, List.nil_append]
  constructor
  · intro hw
    rw [step_waits (s := s.consoleReply (.byte b)) hrun hw, resume_getc, State.getcRead, consoleRead_byte hreply, ← hin]
    rfl
  · intro hw ha
    rw [step_waits (s := s.consoleReply (.byte b)) hrun hw, resume_inp, inRead_byte hreply ha, ← hin]
    rfl

/-! ### TRAP by its vector -/

/-- An unknown vector raises its fault (R179). -/
theorem exec_trap_unknown {v : BitVec 8} (h : v < 0x20 ∨ 0x25 < v) (s : State) :
    exec (.trap v) s = .next (s.raiseFault (.trapError (.unknownVector v))) := by
  have hv : v.toNat < 0x20 ∨ 0x25 < v.toNat := h
  rw [exec]
  rcases execTrap_cases v s with ⟨h1, -⟩ | ⟨h1, -⟩ | ⟨h1, -⟩ | ⟨h1, -⟩ | ⟨h1, -⟩ | ⟨h1, -⟩ | ⟨-, heq⟩
  case inr.inr.inr.inr.inr.inr => exact heq
  all_goals omega

/-- Settles O31: a known vector's TRAP is its service by evaluation, and every other is `exec_trap_unknown`. -/
theorem trapRunsTheServiceOfItsVector : Obligations.TrapRunsTheServiceOfItsVector := by
  intro s
  obtain ⟨hgetc, -, -⟩ := getcReadsOneByte s
  obtain ⟨hout, -⟩ := outWritesTheLowByte s
  exact ⟨exec_halt s, hout, hgetc, rfl, rfl, rfl, fun v hv => exec_trap_unknown hv s⟩

/-- Settles O15: the low eight bits of the word are the vector. -/
theorem stepAtTrapWords : Obligations.StepAtTrapWords := by
  intro s w hs hw s1 v
  refine ⟨fun h => ?_, fun h => ?_, fun h => ?_, fun h => ?_, fun h => ?_, fun h => ?_, fun h hv => ?_⟩
  · exact step_of_encodes hs hw (.getc (opcode_of_mask rfl h) (bits_of_mask rfl h))
  · exact step_of_encodes hs hw (.out (opcode_of_mask rfl h) (bits_of_mask rfl h))
  · exact step_of_encodes hs hw (.puts (opcode_of_mask rfl h) (bits_of_mask rfl h))
  · exact step_of_encodes hs hw (.inp (opcode_of_mask rfl h) (bits_of_mask rfl h))
  · exact step_of_encodes hs hw (.putsp (opcode_of_mask rfl h) (bits_of_mask rfl h))
  · exact step_of_encodes hs hw (.halt (opcode_of_mask rfl h) (bits_of_mask rfl h))
  · exact (step_of_encodes hs hw (.trap (opcode_of_mask rfl h) rfl hv)).trans (exec_trap_unknown hv s1)

end Sys2Proof.Machine
end

section
/-! PROOFS. What each instruction can do, said once: the states it can leave, by the kind of instruction; and the answers
of a step, O6. -/

namespace Sys2Proof.Machine

/-- `u` is `s` after the console accepted some bytes. -/
def State.OutputsTo (s u : State) : Prop := ∃ bs, u = s.wrote bs

theorem State.OutputsTo.refl (s : State) : s.OutputsTo s := ⟨[], (wrote_nil s).symm⟩

theorem State.OutputsTo.wrote (s : State) (bs : List Byte) : s.OutputsTo (s.wrote bs) := ⟨bs, rfl⟩

/-- What a TRAP `i`, or a step of its service, can leave of `s`. After some output it completes, stores a byte it was
given, goes on, or fails at a console call; or it halts; or it has no service. `found` is the wait it may leave as it
is. -/
inductive ServiceEffect (found : Option Service) (i : Instr) (s : State) : State → Prop
  | completes {u : State} (hu : s.OutputsTo u) {w : Option Service} (hw : w = found ∨ w = none) :
      ServiceEffect found i s { u with wait := w }
  | storesByte {u : State} (hu : s.OutputsTo u) (v : Word) {r : ReadReply} {rest : List ReadReply}
      (hdest : destReg i = some 0) (hreads : readsConsole i = true) (hin : s.consoleIn = r :: rest) :
      ServiceEffect found i s { u.setReg 0 v with consoleIn := rest, wait := none }
  | goesOn {u : State} (hu : s.OutputsTo u) {svc : Service} (hi : i.wellFormed = true → i = svc.instr)
      (hreads : readsConsole svc.instr = true → readsConsole i = true ∧ s.consoleIn = []) :
      ServiceEffect found i s { u with wait := some svc }
  | fails {u : State} (hu : s.OutputsTo u) {q : List ReadReply} {w : Option Service}
      (hraise : mayRaise i (.trapError .io) = true)
      (hin : s.consoleIn = q ∨ readsConsole i = true ∧ ∃ r, s.consoleIn = r :: q) (hw : w = found ∨ w = none) :
      ServiceEffect found i s { u with consoleIn := q, wait := w, run := .faulted (.trapError .io) }
  | halts (hhalt : isHalt i = true) : ServiceEffect found i s { s with wait := found, run := .halted }
  | unknown {reason : FaultReason} (hraise : mayRaise i reason = true) :
      ServiceEffect found i s { s with wait := found, run := .faulted reason }

/-- What an instruction can leave of `s`, by its kind. -/
inductive Effect (i : Instr) (s : State) : State → Prop
  | result {dr : Reg} {v : Word} (hdest : destReg i = some dr) (hcc : setsCc i = true) : Effect i s (s.writeResult dr v)
  | store {a : Word} {r : Reg} (haddr : storeAddr i s = some a) (hreg : storedReg i = some r) (hcc : setsCc i = false) :
      Effect i s (s.memWrite a (s.getReg r))
  | jump {target : Word} (hpc : transfersControl i = true) (hcc : setsCc i = false) : Effect i s (s.setPc target)
  | call {target : Word} (hpc : transfersControl i = true) (hdest : destReg i = some 7) (hcc : setsCc i = false) :
      Effect i s (s.call target)
  | fault {reason : FaultReason} (hi : i = .rti ∨ i = .reserved) (hraise : mayRaise i reason = true)
      (hcc : setsCc i = false) : Effect i s (s.raiseFault reason)
  | service {t : State} (htrap : isTrap i = true) (hcc : setsCc i = false) (h : ServiceEffect s.wait i s t) : Effect i s t

/-! ### The services

`i` is the service's TRAP under any of its names; the hypotheses are what the tables give that instruction. -/

section

variable {i : Instr} (hraise : mayRaise i (.trapError .io) = true)
include hraise

/-- GETC, and each later try of its read. -/
theorem getcRead_effect (found : Option Service) (hdest : destReg i = some 0) (hreads : readsConsole i = true)
    (hi : i.wellFormed = true → i = .getc) (s : State) : ServiceEffect found i s s.getcRead := by
  rcases getcRead_cases s with ⟨hin, h⟩ | ⟨b, rest, hin, h⟩ | ⟨rest, hin, h⟩ <;> rw [h]
  · exact .goesOn (.refl s) (svc := .getc) hi fun _ => ⟨hreads, hin⟩
  · exact .storesByte (.refl s) (zext b) hdest hreads hin
  · exact .fails (.refl s) hraise (.inr ⟨hreads, _, hin⟩) (.inr rfl)

/-- IN from its read on, after its prompt or at a later try. -/
theorem inRead_effect (found : Option Service) (hdest : destReg i = some 0) (hreads : readsConsole i = true)
    (hi : i.wellFormed = true → i = .inp) {s u : State} (hu : s.OutputsTo u) : ServiceEffect found i s u.inRead := by
  obtain ⟨bs, rfl⟩ := hu
  rcases inRead_cases (s.wrote bs) with ⟨hin, h⟩ | ⟨b, rest, hin, -, h⟩ | ⟨r, rest, hin, -, h⟩ <;> rw [h]
  · exact .goesOn (.wrote s bs) (svc := .inp) hi fun _ => ⟨hreads, hin⟩
  · rw [wrote_append]
    exact .storesByte (.wrote s (bs ++ [b])) (zext b) hdest hreads hin
  · exact .fails (.wrote s bs) hraise (.inr ⟨hreads, _, hin⟩) (.inr rfl)

/-- IN. -/
theorem inWith_effect (hdest : destReg i = some 0) (hreads : readsConsole i = true) (hi : i.wellFormed = true → i = .inp)
    (s : State) (prompt : List Byte) : ServiceEffect s.wait i s (s.inWith prompt) := by
  rcases inWith_cases s prompt with ⟨-, h⟩ | ⟨k, -, -, h⟩ <;> rw [h]
  · exact inRead_effect hraise s.wait hdest hreads hi (.wrote s prompt)
  · exact .fails (.wrote s (prompt.take k)) hraise (.inl rfl) (.inl rfl)

/-- One turn of PUTS or PUTSP. -/
theorem writeString_effect (found : Option Service) (svc : Service) (hi : i.wellFormed = true → i = svc.instr)
    (hnone : readsConsole svc.instr = false) (emit : Word → List Byte) (s : State) :
    ServiceEffect found i s (s.writeString svc emit) := by
  obtain ⟨bs, h | h | h⟩ := writeString_cases s svc emit <;> rw [h]
  · exact .completes (.wrote s bs) (.inr rfl)
  · exact .fails (.wrote s bs) hraise (.inl rfl) (.inr rfl)
  · exact .goesOn (.wrote s bs) hi fun hr => absurd hr (by simp [hnone])

/-- OUT. -/
theorem execOut_effect (s : State) : ∃ t, execOut s = .next t ∧ ServiceEffect s.wait i s t := by
  rcases execOut_cases s with ⟨-, h⟩ | ⟨-, h⟩
  · exact ⟨_, h, .completes (.wrote s _) (.inl rfl)⟩
  · exact ⟨_, h, .fails (.refl s) hraise (.inl rfl) (.inl rfl)⟩

end

/-- A vector of R171's table, or another. -/
theorem vector_cases (v : BitVec 8) :
    v = 0x20 ∨ v = 0x21 ∨ v = 0x22 ∨ v = 0x23 ∨ v = 0x24 ∨ v = 0x25 ∨ v < 0x20 ∨ 0x25 < v := by
  bv_omega

/-- TRAP under its own name: the service of its vector, or none. -/
theorem execTrap_effect (v : BitVec 8) (s : State) :
    ∃ t, exec (.trap v) s = .next t ∧ ServiceEffect s.wait (.trap v) s t := by
  rcases vector_cases v with rfl | rfl | rfl | rfl | rfl | rfl | hv
  · exact ⟨_, rfl, getcRead_effect rfl s.wait rfl rfl (absurd · (by decide)) s⟩
  · exact execOut_effect rfl s
  · exact ⟨_, rfl, writeString_effect rfl s.wait .puts (absurd · (by decide)) rfl putsBytes s⟩
  · exact ⟨_, rfl, inWith_effect rfl rfl rfl (absurd · (by decide)) s inPrompt⟩
  · exact ⟨_, rfl, writeString_effect rfl s.wait .putsp (absurd · (by decide)) rfl putspBytes s⟩
  · exact ⟨_, exec_halt s, .halts rfl⟩
  · refine ⟨_, exec_trap_unknown hv s, .unknown ?_⟩
    simpa [mayRaise, BitVec.lt_def] using hv

/-- Every instruction answers a next state in every state, with the effect of its kind. -/
theorem exec_effect (i : Instr) (s : State) : ∃ t, exec i s = .next t ∧ Effect i s t := by
  cases i with
  | br n z p off =>
    by_cases h : (n = true ∧ s.cc = .N) ∨ (z = true ∧ s.cc = .Z) ∨ (p = true ∧ s.cc = .P)
    · exact ⟨_, exec_br_taken h, .jump rfl rfl⟩
    · exact ⟨_, exec_br_not_taken h, .jump (target := s.pc) rfl rfl⟩
  | addReg | addImm | andReg | andImm | not | ld | ldi | ldr | lea => exact ⟨_, rfl, .result rfl rfl⟩
  | st | sti | str => exact ⟨_, rfl, .store rfl rfl rfl⟩
  | jmp | ret => exact ⟨_, rfl, .jump rfl rfl⟩
  | jsr | jsrr => exact ⟨_, rfl, .call rfl rfl rfl⟩
  | rti => exact ⟨_, rfl, .fault (.inl rfl) rfl rfl⟩
  | reserved => exact ⟨_, rfl, .fault (.inr rfl) rfl rfl⟩
  | trap v =>
    obtain ⟨t, ht, heff⟩ := execTrap_effect v s
    exact ⟨t, ht, .service rfl rfl heff⟩
  | getc => exact ⟨_, rfl, .service rfl rfl (getcRead_effect rfl s.wait rfl rfl (fun _ => rfl) s)⟩
  | out =>
    obtain ⟨t, ht, heff⟩ := execOut_effect (i := .out) rfl s
    exact ⟨t, ht, .service rfl rfl heff⟩
  | puts => exact ⟨_, rfl, .service rfl rfl (writeString_effect rfl s.wait .puts (fun _ => rfl) rfl putsBytes s)⟩
  | inp => exact ⟨_, rfl, .service rfl rfl (inWith_effect rfl rfl rfl (fun _ => rfl) s inPrompt)⟩
  | putsp => exact ⟨_, rfl, .service rfl rfl (writeString_effect rfl s.wait .putsp (fun _ => rfl) rfl putspBytes s)⟩
  | halt => exact ⟨_, exec_halt s, .service rfl rfl (.halts rfl)⟩

/-- What an answered instruction left is its effect. -/
theorem effect_of_exec {i : Instr} {s t : State} (h : exec i s = .next t) : Effect i s t := by
  obtain ⟨u, hu, heff⟩ := exec_effect i s
  obtain rfl : u = t := Host.Outcome.next.inj (hu.symm.trans h)
  exact heff

/-- A later step of a service is an effect of its TRAP, and leaves no wait but its own. -/
theorem resume_effect (svc : Service) (s : State) : ServiceEffect none svc.instr s (s.resume svc) := by
  cases svc with
  | getc => exact getcRead_effect rfl none rfl rfl (fun _ => rfl) s
  | inp => exact inRead_effect rfl none rfl rfl (fun _ => rfl) (.refl s)
  | puts => exact writeString_effect rfl none .puts (fun _ => rfl) rfl putsBytes s
  | putsp => exact writeString_effect rfl none .putsp (fun _ => rfl) rfl putspBytes s

/-! ### What a service leaves alone -/

section

variable {found : Option Service} {i : Instr} {s t : State} (h : ServiceEffect found i s t)
include h

/-- No service writes the pc, cc or memory (43_trap.md R172). -/
theorem ServiceEffect.frame : t.pc = s.pc ∧ t.cc = s.cc ∧ t.mem = s.mem := by
  cases h with
  | halts | unknown => exact ⟨rfl, rfl, rfl⟩
  | _ hu =>
    obtain ⟨bs, rfl⟩ := hu
    exact ⟨rfl, rfl, rfl⟩

/-- No service writes a register but R0, and that only as the destination of its TRAP. -/
theorem ServiceEffect.regs : t.regs = s.regs ∨ destReg i = some 0 ∧ ∃ v, t.regs = (s.setReg 0 v).regs := by
  cases h with
  | halts | unknown => exact .inl rfl
  | storesByte hu v hdest =>
    obtain ⟨bs, rfl⟩ := hu
    exact .inr ⟨hdest, v, rfl⟩
  | completes hu | goesOn hu | fails hu =>
    obtain ⟨bs, rfl⟩ := hu
    exact .inl rfl

/-- Output only grows. -/
theorem ServiceEffect.output : ∃ bs, t.consoleOut = s.consoleOut ++ bs := by
  cases h with
  | halts | unknown => exact ⟨[], (List.append_nil _).symm⟩
  | _ hu =>
    obtain ⟨bs, rfl⟩ := hu
    exact ⟨bs, rfl⟩

end

end Sys2Proof.Machine
end

section
/-! PROOFS. The rules about every instruction (10_state.md R21 to R34, 60_exceptions.md sections 1 and 2), read off its
effect: O6, O8 and O32 to O38. -/

namespace Sys2Proof.Machine

/-! ### What a service changes -/

section

variable {found : Option Service} {i : Instr} {s t : State} (h : ServiceEffect found i s t)
include h

/-- A service takes at most one reply, and only where its TRAP reads the console. -/
theorem ServiceEffect.replies :
    t.consoleIn = s.consoleIn ∨ readsConsole i = true ∧ ∃ r, s.consoleIn = r :: t.consoleIn := by
  cases h with
  | halts | unknown => exact .inl rfl
  | storesByte _ _ _ hreads hin => exact .inr ⟨hreads, _, hin⟩
  | fails _ _ hin => exact hin.imp_left Eq.symm
  | completes hu | goesOn hu =>
    obtain ⟨bs, rfl⟩ := hu
    exact .inl rfl

/-- A service leaves the run state alone, halts, or raises a fault of its TRAP. -/
theorem ServiceEffect.ending :
    t.run = s.run ∨ (t.run = .halted ∧ isHalt i = true) ∨
      ∃ reason, t.run = .faulted reason ∧ mayRaise i reason = true := by
  cases h with
  | halts hhalt => exact .inr (.inl ⟨rfl, hhalt⟩)
  | unknown hraise => exact .inr (.inr ⟨_, rfl, hraise⟩)
  | fails _ hraise => exact .inr (.inr ⟨_, rfl, hraise⟩)
  | completes hu | storesByte hu | goesOn hu =>
    obtain ⟨bs, rfl⟩ := hu
    exact .inl rfl

/-- A service that faults keeps the registers, and the output too unless the console failed. -/
theorem ServiceEffect.precise (hs : s.run = .running) {reason : FaultReason} (ht : t.run = .faulted reason) :
    t.regs = s.regs ∧ (reason ≠ .trapError .io → t.consoleOut = s.consoleOut) := by
  cases h with
  | halts => cases ht
  | unknown => exact ⟨rfl, fun _ => rfl⟩
  | fails hu =>
    obtain ⟨bs, rfl⟩ := hu
    cases ht
    exact ⟨rfl, fun hne => absurd rfl hne⟩
  | completes hu | storesByte hu | goesOn hu =>
    obtain ⟨bs, rfl⟩ := hu
    exact absurd (hs.symm.trans ht) nofun

end

/-- A wait that a service leaves is its own: the run goes on, no register changes, and no reply had come to a read. -/
theorem ServiceEffect.wait {i : Instr} {s t : State} (h : ServiceEffect none i s t) {svc : Service}
    (ht : t.wait = some svc) :
    (i.wellFormed = true → i = svc.instr) ∧ t.run = s.run ∧ t.regs = s.regs ∧
      (readsConsole svc.instr = true → readsConsole i = true ∧ s.consoleIn = []) := by
  cases h with
  | halts | unknown | storesByte => cases ht
  | completes _ hw | fails _ _ _ hw => rcases hw with rfl | rfl <;> cases ht
  | goesOn hu hi hreads =>
    obtain ⟨bs, rfl⟩ := hu
    cases ht
    exact ⟨hi, rfl, rfl, hreads⟩

/-- A service reads memory as before. -/
theorem ServiceEffect.memRead {found : Option Service} {i : Instr} {s t : State} (h : ServiceEffect found i s t)
    (a : Word) : t.memRead a = s.memRead a := by
  obtain ⟨-, -, hmem⟩ := h.frame
  exact memRead_of_mem hmem a

/-- A service writes no register but the destination of its TRAP. -/
theorem ServiceEffect.getReg {found : Option Service} {i : Instr} {s t : State} (h : ServiceEffect found i s t) {r : Reg}
    (hr : destReg i ≠ some r) : t.getReg r = s.getReg r := by
  rcases h.regs with hregs | ⟨hdest, v, hregs⟩
  · exact getReg_of_regs hregs r
  · have hne : r ≠ 0 := fun e => hr (hdest.trans (congrArg some e.symm))
    rw [getReg_of_regs hregs r, getReg_setReg, if_neg hne]

/-! ### Steps -/

/-- A step that fetched has the effect of its instruction. -/
theorem effect_of_step {s t : State} (hs : s.fetches) (h : step s = .next t) :
    Effect (decode (s.memRead s.pc)) s.advance t :=
  effect_of_exec ((step_fetches hs).symm.trans h)

/-- A step inside a service is its next try or turn. -/
theorem eq_resume_of_step {s t : State} {svc : Service} (hw : s.wait = some svc) (h : step s = .next t) :
    t = s.resume svc := by
  obtain ⟨hrun, -⟩ := step_next h
  exact (Host.Outcome.next.inj ((step_waits hrun hw).symm.trans h)).symm

/-- Settles O6: `exec_effect`, and the two things a step while Running can be. -/
theorem stepAnswersWhileRunning : Obligations.StepAnswersWhileRunning := by
  refine ⟨fun i s => ?_, fun s => ⟨fun ⟨t, ht⟩ => (step_next ht).1, fun hrun => ?_⟩, fun s svc hrun hw => ?_⟩
  · obtain ⟨t, ht, -⟩ := exec_effect i s
    exact ⟨t, ht⟩
  · cases hw : s.wait with
    | none =>
      obtain ⟨t, ht, -⟩ := exec_effect (decode (s.memRead s.pc)) s.advance
      exact ⟨t, (step_fetches ⟨hrun, hw⟩).trans ht⟩
    | some svc => exact ⟨s.resume svc, step_waits hrun hw⟩
  · have heff := resume_effect svc s
    obtain ⟨hpc, hcc, -⟩ := heff.frame
    exact ⟨step_waits hrun hw, hpc, hcc, heff.memRead⟩

/-- Settles O8: the effects that fault are `raiseFault` and those of a service, which are precise. -/
theorem faultsEndTheRunAndArePrecise : Obligations.FaultsEndTheRunAndArePrecise := by
  refine ⟨fun s t reason hs hstep hfault => ?_, fun s t svc reason hrun hw hstep hfault => ?_⟩
  · have hend : step t = .fault (.faulted reason) := step_faulted hfault
    have hrun : s.run = .running := hs.1
    cases effect_of_step hs hstep with
    | result | store | jump | call => exact absurd (hrun.symm.trans hfault) nofun
    | fault => exact ⟨rfl, rfl, rfl, fun _ => rfl, ⟨[], (List.append_nil _).symm⟩, fun _ => rfl, hend⟩
    | service _ _ h =>
      obtain ⟨hpc, hcc, -⟩ := h.frame
      obtain ⟨hregs, hout⟩ := h.precise hrun hfault
      exact ⟨hpc, hregs, hcc, h.memRead, h.output, hout, hend⟩
  · have h : ServiceEffect none svc.instr s t := eq_resume_of_step hw hstep ▸ resume_effect svc s
    obtain ⟨hpc, hcc, -⟩ := h.frame
    obtain ⟨hregs, -⟩ := h.precise hrun hfault
    exact ⟨hpc, hregs, hcc, h.memRead, h.output, step_faulted hfault⟩

/-! ### Frames -/

/-- Settles O32: results and calls write their destination, a service R0 where that is its own. -/
theorem onlyTheDestinationRegisterChanges : Obligations.OnlyTheDestinationRegisterChanges := by
  intro i s t r hexec hr
  have hne {q : Reg} (hdest : destReg i = some q) : r ≠ q := fun e => hr (hdest.trans (congrArg some e.symm))
  cases effect_of_exec hexec with
  | result hdest => rw [getReg_writeResult, if_neg (hne hdest)]
  | call _ hdest => rw [getReg_call, if_neg (hne hdest)]
  | store | jump | fault => rfl
  | service _ _ h => exact h.getReg hr

/-- Settles O33: a result sets cc from the value it writes, and no other effect sets it. -/
theorem onlyDocumentedInstructionsWriteCc : Obligations.OnlyDocumentedInstructionsWriteCc := by
  intro i s t hexec
  have leaves (hcc : setsCc i = false) (ht : t.cc = s.cc) :
      (setsCc i = false → t.cc = s.cc) ∧ (setsCc i = true → ∃ dr, destReg i = some dr ∧ t.cc = ccOf (t.getReg dr)) :=
    ⟨fun _ => ht, fun hset => absurd (hcc.symm.trans hset) nofun⟩
  cases effect_of_exec hexec with
  | result hdest hcc =>
    refine ⟨fun hset => absurd (hcc.symm.trans hset) nofun, fun _ => ⟨_, hdest, ?_⟩⟩
    rw [getReg_writeResult, if_pos rfl, writeResult_cc]
  | store _ _ hcc => exact leaves hcc rfl
  | jump _ hcc => exact leaves hcc rfl
  | call _ _ hcc => exact leaves hcc rfl
  | fault _ _ hcc => exact leaves hcc rfl
  | service _ hcc h =>
    obtain ⟨-, ht, -⟩ := h.frame
    exact leaves hcc ht

/-- Settles O34: the one effect that writes memory is a store, at its address. -/
theorem onlyStoresChangeMemory : Obligations.OnlyStoresChangeMemory := by
  intro i s t a hexec ha
  cases effect_of_exec hexec with
  | store haddr => exact memRead_memWrite_other s (fun e => ha (haddr.trans (congrArg some e.symm))) _
  | result | jump | call | fault => rfl
  | service _ _ h => exact h.memRead a

/-- The effects that write the pc are those of the transfers (R25). -/
theorem Effect.pc {i : Instr} {s t : State} (h : Effect i s t) (hi : transfersControl i = false) : t.pc = s.pc := by
  cases h with
  | jump hpc => exact absurd (hi.symm.trans hpc) nofun
  | call hpc => exact absurd (hi.symm.trans hpc) nofun
  | result | store | fault => rfl
  | service _ _ h =>
    obtain ⟨hpc, -⟩ := h.frame
    exact hpc

/-- Settles O35: the frame of the effect, for an instruction, for a step that fetched, and for a service's step. -/
theorem onlyTransfersRedirectThePc : Obligations.OnlyTransfersRedirectThePc := by
  refine ⟨fun i s t hexec hi => (effect_of_exec hexec).pc hi, fun s t hs hstep hi => (effect_of_step hs hstep).pc hi,
    fun s t svc hw hstep => ?_⟩
  obtain ⟨hpc, -⟩ := (resume_effect svc s).frame
  rw [eq_resume_of_step hw hstep, hpc]

/-- Settles O36: every effect but a service's leaves the console's fields and the wait alone. -/
theorem onlyTrapsReachTheConsole : Obligations.OnlyTrapsReachTheConsole := by
  intro i s t hexec
  cases effect_of_exec hexec with
  | result | store | jump | call | fault =>
    exact ⟨fun _ => ⟨rfl, rfl, rfl, rfl⟩, ⟨[], (List.append_nil _).symm⟩, .inl rfl⟩
  | service htrap _ h => exact ⟨fun hi => absurd (hi.symm.trans htrap) nofun, h.output, h.replies⟩

/-- Settles O37: the effects that end a run are a fault and those of a service. -/
theorem onlyHaltAndListedFaultsEndTheRun : Obligations.OnlyHaltAndListedFaultsEndTheRun := by
  refine ⟨fun i s t hrun hexec => ?_, fun i s htrap hrti hreserved => ?_⟩
  · cases effect_of_exec hexec with
    | result | store | jump | call => exact .inl hrun
    | fault _ hraise => exact .inr (.inr ⟨_, rfl, hraise⟩)
    | service _ _ h => exact h.ending.imp_left (·.trans hrun)
  · obtain ⟨t, hexec, heff⟩ := exec_effect i s
    refine ⟨t, hexec, ?_⟩
    cases heff with
    | result | store | jump | call => rfl
    | fault hi => exact absurd hi (not_or.mpr ⟨hrti, hreserved⟩)
    | service hi => exact absurd (htrap.symm.trans hi) nofun

/-! ### Waiting for a reply -/

/-- With no reply a waiting read waits on. -/
theorem resume_empty {svc : Service} (hreads : readsConsole svc.instr = true) {s : State} (hin : s.consoleIn = []) :
    s.resume svc = { s with wait := some svc } := by
  cases svc with
  | getc => rw [resume_getc, State.getcRead, consoleRead_empty hin]
  | inp => rw [resume_inp, State.inRead, consoleRead_empty hin]
  | puts | putsp => cases hreads

/-- A reply ends a waiting read, and is taken. -/
theorem resume_reply {svc : Service} (hreads : readsConsole svc.instr = true) {s : State} {reply : ReadReply}
    {rest : List ReadReply} (hin : s.consoleIn = reply :: rest) :
    (s.resume svc).wait = none ∧ (s.resume svc).consoleIn = rest := by
  cases svc with
  | getc =>
    rcases getcRead_cases s with ⟨h, -⟩ | ⟨b, q, h, heq⟩ | ⟨q, h, heq⟩
    · exact absurd (hin.symm.trans h) nofun
    all_goals
      rw [resume_getc, heq]
      exact ⟨rfl, (List.cons.inj (h.symm.trans hin)).2⟩
  | inp =>
    rcases inRead_cases s with ⟨h, -⟩ | ⟨b, q, h, -, heq⟩ | ⟨r, q, h, -, heq⟩
    · exact absurd (hin.symm.trans h) nofun
    all_goals
      rw [resume_inp, heq]
      exact ⟨rfl, (List.cons.inj (h.symm.trans hin)).2⟩
  | puts | putsp => cases hreads

/-- R0 is the one register a waiting service may write. -/
theorem destReg_service {svc : Service} {r : Reg} (hr : r ≠ 0) : destReg svc.instr ≠ some r := by
  cases svc <;> simp [Service.instr, destReg, hr.symm]

/-- Settles O38: a waiting read without a reply, with one, and its beginning. -/
theorem waitChangesNothingUntilAReply : Obligations.WaitChangesNothingUntilAReply := by
  refine ⟨fun s svc hrun hw hreads hin => ?_, fun s svc reply rest hrun hw hreads hin => ?_,
    fun i s t svc hw hexec ht hreads => ?_⟩
  · rw [step_waits hrun hw, resume_empty hreads hin, ← hw]
  · have h := resume_effect svc s
    obtain ⟨hwait, hrest⟩ := resume_reply hreads hin
    obtain ⟨hpc, hcc, -⟩ := h.frame
    exact ⟨_, step_waits hrun hw, hwait, hrest, hpc, hcc, h.memRead, fun r hr => h.getReg (destReg_service hr)⟩
  · cases effect_of_exec hexec with
    | result | store | jump | call | fault => exact absurd (hw.symm.trans ht) nofun
    | service _ _ h =>
      rw [hw] at h
      obtain ⟨-, hrun, hregs, hread⟩ := h.wait ht
      obtain ⟨hi, hin⟩ := hread hreads
      obtain ⟨hpc, hcc, hmem⟩ := h.frame
      exact ⟨hi, hin, hregs, hpc, hcc, hmem, hrun⟩

end Sys2Proof.Machine
end

section
/-! PROOFS. The invariant (60_exceptions.md sections 1 and 2, 10_state.md section 4) at reset, over a step and along
every run, O53 to O55; the start of a run, O52 and O58; plain code, O56; and a call that returns, O57. -/

namespace Sys2Proof.Machine

/-! ### The invariant -/

/-- A running state with no service under way meets the invariant when its memory is canonical. -/
theorem inv_of_fetches {s : State} (hmem : s.mem.wf) (hs : s.fetches) : s.Inv where
  memory := hmem
  waiting _ hw := absurd (hs.2.symm.trans hw) nofun
  halted hrun := absurd (hs.1.symm.trans hrun) nofun
  faulted _ hrun := absurd (hs.1.symm.trans hrun) nofun

/-- Settles O53: the reset state fetches, from an empty memory. -/
theorem resetMeetsTheInvariant : Obligations.ResetMeetsTheInvariant := inv_of_fetches reset_mem_wf ⟨rfl, rfl⟩

/-- After the fetch increment the instruction at `pc - 1` is the one fetched (R225). -/
theorem lastInstr_of_pc {s t : State} (hpc : t.pc = s.pc + 1) (hmem : t.mem = s.mem) :
    t.lastInstr = decode (s.memRead s.pc) := by
  rw [State.lastInstr, memRead_of_mem hmem, hpc, BitVec.add_sub_cancel]

/-- HALT has one well-formed name. -/
theorem eq_halt_of_isHalt {i : Instr} (hwf : i.wellFormed = true) (hi : isHalt i = true) : i = .halt := by
  cases i with
  | halt => rfl
  | trap v =>
    obtain rfl : v = 0x25 := BitVec.eq_of_toNat_eq (by simpa [isHalt] using hi)
    cases hwf
  | _ => cases hi

/-- A service of the well-formed instruction at `pc - 1` leaves a state that meets the invariant. -/
theorem ServiceEffect.inv {i : Instr} {s t : State} (h : ServiceEffect none i s t) (hwf : i.wellFormed = true)
    (hlast : t.lastInstr = i) (hmem : s.mem.wf) (hrun : s.run = .running) : t.Inv := by
  obtain ⟨-, -, htmem⟩ := h.frame
  refine ⟨htmem ▸ hmem, fun svc hw => ?_, fun ht => ?_, fun reason ht => ?_⟩
  · obtain ⟨hi, htrun, -, -⟩ := h.wait hw
    exact ⟨htrun.trans hrun, hlast.trans (hi hwf)⟩
  · rcases h.ending with hsame | ⟨-, hi⟩ | ⟨reason, hfault, -⟩
    · exact absurd ((hsame.trans hrun).symm.trans ht) nofun
    · exact hlast.trans (eq_halt_of_isHalt hwf hi)
    · exact absurd (ht.symm.trans hfault) nofun
  · rcases h.ending with hsame | ⟨hhalt, -⟩ | ⟨raised, hfault, hraise⟩
    · exact absurd ((hsame.trans hrun).symm.trans ht) nofun
    · exact absurd (hhalt.symm.trans ht) nofun
    · obtain rfl : raised = reason := RunState.faulted.inj (hfault.symm.trans ht)
      rwa [hlast]

/-- An instruction fetched from canonical memory leaves a state that meets the invariant. -/
theorem inv_of_effect {s t : State} (hmem : s.mem.wf) (hs : s.fetches)
    (h : Effect (decode (s.memRead s.pc)) s.advance t) : t.Inv := by
  cases h with
  | result | jump | call => exact inv_of_fetches hmem hs
  | store => exact inv_of_fetches (memWrite_wf (s := s.advance) hmem _ _) hs
  | @fault reason _ hraise =>
    have hlast : (s.advance.raiseFault reason).lastInstr = decode (s.memRead s.pc) := lastInstr_of_pc rfl rfl
    refine ⟨hmem, fun svc hw => absurd (hs.2.symm.trans hw) nofun, nofun, fun r hr => ?_⟩
    cases hr
    rwa [hlast]
  | service _ _ h =>
    rw [show s.advance.wait = none from hs.2] at h
    obtain ⟨hpc, -, htmem⟩ := h.frame
    exact h.inv (encodes_decode _).wellFormed (lastInstr_of_pc hpc htmem) hmem hs.1

/-- Settles O54: a step that fetches is `inv_of_effect`; a step of a service leaves the instruction at `pc - 1`. -/
theorem everyStepKeepsTheInvariant : Obligations.EveryStepKeepsTheInvariant := by
  intro s t hinv hstep
  obtain ⟨hrun, ⟨hw, -⟩ | ⟨svc, hw, rfl⟩⟩ := step_next hstep
  · exact inv_of_effect hinv.memory ⟨hrun, hw⟩ (effect_of_step ⟨hrun, hw⟩ hstep)
  · have h := resume_effect svc s
    obtain ⟨hpc, -, hmem⟩ := h.frame
    obtain ⟨-, hlast⟩ := hinv.waiting svc hw
    have hsame : (s.resume svc).lastInstr = s.lastInstr := by
      rw [State.lastInstr, State.lastInstr, memRead_of_mem hmem, hpc]
    refine h.inv ?_ (hsame.trans hlast) hinv.memory hrun
    cases svc <;> rfl

/-- What holds at the start of a run, after every step and after every reply, holds of every state the run reaches. -/
theorem Reaches.invariant {p : State → Prop} (hstep : ∀ t u, p t → Machine.step t = .next u → p u)
    (hreply : ∀ t r, p t → p (t.consoleReply r)) {s t : State} (h : Reaches s t) (hs : p s) : p t := by
  induction h with
  | refl => exact hs
  | step _ hnext ih => exact hstep _ _ ih hnext
  | reply r _ ih => exact hreply _ r ih

/-- Settles O55: the state a run starts with fetches from a loaded memory, and a reply touches no field the invariant
reads. -/
theorem everyRunKeepsTheInvariant : Obligations.EveryRunKeepsTheInvariant := by
  intro l origin words s t hboot hreach
  obtain ⟨mem, hload, rfl⟩ := boot_ok hboot
  refine hreach.invariant everyStepKeepsTheInvariant (fun t r ht => ?_) (inv_of_fetches (load_wf hload) ⟨rfl, rfl⟩)
  exact ⟨ht.memory, ht.waiting, ht.halted, ht.faulted⟩

/-! ### The start -/

/-- Settles O52: every field of the reset state is a literal. -/
theorem resetLeavesTheTabledValues : Obligations.ResetLeavesTheTabledValues := by
  refine ⟨fun _ => rfl, rfl, rfl, fun r => ?_, rfl, rfl, rfl⟩
  exact Vector.getElem_replicate r.isLt

/-- A run starts with the memory the Loader leaves, whenever it leaves one. -/
theorem boot_of_load {origin : Word} {words : List Word} {m : Memory} (h : load [] origin words = .ok m) (l : Launch) :
    ∃ s, boot l origin words = .ok s ∧ s.mem = m := by
  rw [boot, h]
  exact ⟨_, rfl, rfl⟩

/-- Settles O58: `boot_ok` names every field. -/
theorem aRunStartsWithTheTabledState : Obligations.ARunStartsWithTheTabledState := by
  refine fun l origin words => ⟨fun m hload => boot_of_load hload l, fun s hboot => ?_⟩
  obtain ⟨mem, hload, rfl⟩ := boot_ok hboot
  exact ⟨fun _ => rfl, rfl, rfl, rfl, rfl, hload, rfl, rfl, rfl⟩

/-! ### Plain code -/

/-- `i` is no TRAP, RTI, 0xD or store. -/
def IsPlain (i : Instr) : Prop :=
  isTrap i = false ∧ i ≠ .rti ∧ i ≠ .reserved ∧ ∀ u, storeAddr i u = none

/-- A plain instruction keeps the machine fetching from the same memory. -/
theorem Effect.keeps_fetching {i : Instr} (hi : IsPlain i) {s t : State} (h : Effect i s t) :
    t.mem = s.mem ∧ t.run = s.run ∧ t.wait = s.wait := by
  obtain ⟨htrap, hrti, hreserved, hstore⟩ := hi
  cases h with
  | result | jump | call => exact ⟨rfl, rfl, rfl⟩
  | store haddr => exact absurd ((hstore s).symm.trans haddr) nofun
  | fault hi => exact absurd hi (not_or.mpr ⟨hrti, hreserved⟩)
  | service hi => exact absurd (htrap.symm.trans hi) nofun

/-- Settles O56: a run of plain code only ever fetches, from the memory it started with. -/
theorem plainCodeRunsForever : Obligations.PlainCodeRunsForever := by
  intro s hs hplain
  have hkeep : ∀ t, Reaches s t → t.mem = s.mem ∧ t.fetches := by
    refine fun t hreach => hreach.invariant (p := fun t => t.mem = s.mem ∧ t.fetches) (fun t u ht hstep => ?_)
      (fun t r ht => ht) ⟨rfl, hs⟩
    obtain ⟨hmem, hfetch⟩ := ht
    have hi : IsPlain (decode (t.memRead t.pc)) := by
      rw [memRead_of_mem hmem]
      exact hplain t.pc
    obtain ⟨hmem', hrun', hwait'⟩ := (effect_of_step hfetch hstep).keeps_fetching hi
    exact ⟨hmem'.trans hmem, hrun'.trans hfetch.1, hwait'.trans hfetch.2⟩
  obtain ⟨-, hanswers, -⟩ := stepAnswersWhileRunning
  refine ⟨fun t hreach reason hfault => ?_, fun t hreach => ?_⟩
  · obtain ⟨-, hrun, -⟩ := hkeep t hreach
    exact absurd (hrun.symm.trans hfault) nofun
  · obtain ⟨-, hrun, hwait⟩ := hkeep t hreach
    exact ⟨hwait, (hanswers t).mpr hrun⟩

/-! ### Call and return -/

/-- One step at a JSR (R154). -/
theorem step_jsr {s : State} {off : BitVec 11} (hs : s.fetches) (h : decode (s.memRead s.pc) = .jsr off) :
    step s = .next (s.advance.call (s.advance.pcRel off)) :=
  (step_fetches hs).trans (congrArg (exec · s.advance) h)

/-- One step at a RET (R152). -/
theorem step_ret {s : State} (hs : s.fetches) (h : decode (s.memRead s.pc) = .ret) :
    step s = .next (s.advance.setPc (s.getReg 7)) :=
  (step_fetches hs).trans (congrArg (exec · s.advance) h)

/-- Settles O57: the JSR leaves the link in R7 and memory alone, so the RET is fetched and reads the link. -/
theorem callThenReturnComesBack : Obligations.CallThenReturnComesBack := by
  intro s off hs hjsr hret
  have hcall (r : Reg) : (s.advance.call (s.advance.pcRel off)).getReg r = if r = 7 then s.pc + 1 else s.getReg r :=
    getReg_call s.advance (s.advance.pcRel off) r
  refine ⟨_, _, step_jsr hs hjsr, step_ret (s := s.advance.call (s.advance.pcRel off)) hs hret, ?_, ?_, rfl, fun _ => rfl,
    fun r hr => (hcall r).trans (if_neg hr)⟩
  · exact (hcall 7).trans (if_pos rfl)
  · exact (hcall 7).trans (if_pos rfl)

end Sys2Proof.Machine
end

section
/-! PROOFS. PUTS and PUTSP (43_trap.md R175, R177): the string loop by the words it reads, O25 to O29. -/

namespace Sys2Proof.Machine

/-! ### The bytes of a string -/

/-- The bytes of the `n` words from `a`, the address wrapping. -/
def State.stringBytes (s : State) (emit : Word → List Byte) (a : Word) (n : Nat) : List Byte :=
  (List.range n).flatMap fun i => emit (s.memRead (a + BitVec.ofNat 16 i))

/-- The word after `a` is the first from `a + 1`. -/
theorem add_ofNat_succ (a : Word) (i : Nat) : a + BitVec.ofNat 16 (i + 1) = a + 1 + BitVec.ofNat 16 i := by
  have hone : BitVec.ofNat 16 (i + 1) = 1#16 + BitVec.ofNat 16 i := by rw [Nat.add_comm, BitVec.ofNat_add]
  rw [hone, BitVec.add_assoc]
  rfl

theorem add_ofNat_zero (a : Word) : a + BitVec.ofNat 16 0 = a := BitVec.add_zero a

theorem stringBytes_zero (s : State) (emit : Word → List Byte) (a : Word) : s.stringBytes emit a 0 = [] := rfl

/-- A string by its first word. -/
theorem stringBytes_succ (s : State) (emit : Word → List Byte) (a : Word) (n : Nat) :
    s.stringBytes emit a (n + 1) = emit (s.memRead a) ++ s.stringBytes emit (a + 1) n := by
  simp only [State.stringBytes, List.range_succ_eq_map, List.flatMap_cons, List.flatMap_map, Nat.succ_eq_add_one,
    add_ofNat_zero, add_ofNat_succ]

/-- A string by its last word. -/
theorem stringBytes_snoc (s : State) (emit : Word → List Byte) (a : Word) (n : Nat) :
    s.stringBytes emit a (n + 1) = s.stringBytes emit a n ++ emit (s.memRead (a + BitVec.ofNat 16 n)) := by
  simp only [State.stringBytes, List.range_succ, List.flatMap_append, List.flatMap_singleton]

/-- PUTS gives each word one byte. -/
theorem stringBytes_puts (s : State) (a : Word) (n : Nat) :
    s.stringBytes putsBytes a n = (List.range n).map fun i => lowByte (s.memRead (a + BitVec.ofNat 16 i)) :=
  List.map_eq_flatMap.symm

/-- PUTSP gives each word its low byte, and its high byte unless that is zero. -/
theorem putspBytes_eq (w : Word) : putspBytes w = lowByte w :: if highByte w = 0 then [] else [highByte w] := by
  unfold putspBytes
  split <;> rfl

theorem stringBytes_putsp (s : State) (a : Word) (n : Nat) :
    s.stringBytes putspBytes a n = (List.range n).flatMap fun i =>
      lowByte (s.memRead (a + BitVec.ofNat 16 i)) ::
        if highByte (s.memRead (a + BitVec.ofNat 16 i)) = 0 then []
        else [highByte (s.memRead (a + BitVec.ofNat 16 i))] := by
  simp only [State.stringBytes, putspBytes_eq]

/-- With a byte for every word a string has at least as many bytes as words. -/
theorem le_length_stringBytes {emit : Word → List Byte} (hemit : ∀ w, emit w ≠ []) (s : State) (a : Word) (n : Nat) :
    n ≤ (s.stringBytes emit a n).length := by
  induction n with
  | zero => exact Nat.zero_le _
  | succ n ih =>
    have hpos : 0 < (emit (s.memRead (a + BitVec.ofNat 16 n))).length := List.length_pos_iff.mpr (hemit _)
    rw [stringBytes_snoc, List.length_append]
    omega

/-! ### The loop -/

/-- Writes accepted one after the other are accepted together. -/
theorem acceptsWrites_add {s : State} {bs : List Byte} {n : Nat} (h : s.acceptsWrites bs.length)
    (hn : (s.wrote bs).acceptsWrites n) : s.acceptsWrites (bs.length + n) := by
  intro k hk
  have hbs : bs.length ≤ k := h k hk
  have hrest : n ≤ k - bs.length := hn (k - bs.length) (by rw [wrote_writesUntilFail, hk, Option.map_some])
  omega

/-- A string write ends at the first byte the console refuses. -/
theorem consoleWriteAll_refused {s : State} {bs : List Byte} {k : Nat} (h : s.writesUntilFail = some k)
    (hk : k < bs.length) : s.consoleWriteAll bs = .failed (s.wrote (bs.take k)) := by
  rcases consoleWriteAll_cases s bs with ⟨ha, -⟩ | ⟨j, hj, -, hw⟩
  · exact absurd (ha k h) (by omega)
  · obtain rfl : k = j := Option.some.inj (h.symm.trans hj)
    exact hw

/-- A first word that is not the terminator, with its bytes accepted, is written and passed. -/
theorem stringLoop_next {emit : Word → List Byte} {a : Word} {s : State} (hne : s.memRead a ≠ 0)
    (ha : s.acceptsWrites (emit (s.memRead a)).length) (n : Nat) :
    stringLoop emit (n + 1) a s = stringLoop emit n (a + 1) (s.wrote (emit (s.memRead a))) := by
  rw [stringLoop_succ, if_neg hne, consoleWriteAll_ok ha]

/-- A first word that is not the terminator, with one of its bytes refused, ends the loop there. -/
theorem stringLoop_refused {emit : Word → List Byte} {a : Word} {s : State} {k : Nat} (hne : s.memRead a ≠ 0)
    (hk : s.writesUntilFail = some k) (hlt : k < (emit (s.memRead a)).length) (n : Nat) :
    stringLoop emit (n + 1) a s = .failed (s.wrote ((emit (s.memRead a)).take k)) := by
  rw [stringLoop_succ, if_neg hne, consoleWriteAll_refused hk hlt]

/-- The loop passes the words of a string that holds no terminator and whose bytes are all accepted. -/
theorem stringLoop_add {emit : Word → List Byte} {a : Word} {s : State} {n : Nat}
    (hne : ∀ i < n, s.memRead (a + BitVec.ofNat 16 i) ≠ 0) (ha : s.acceptsWrites (s.stringBytes emit a n).length)
    (k : Nat) :
    stringLoop emit (n + k) a s = stringLoop emit k (a + BitVec.ofNat 16 n) (s.wrote (s.stringBytes emit a n)) := by
  induction n generalizing a s with
  | zero => rw [Nat.zero_add, add_ofNat_zero, stringBytes_zero, wrote_nil]
  | succ n ih =>
    rw [stringBytes_succ, List.length_append] at ha
    have hfirst : s.memRead a ≠ 0 := add_ofNat_zero a ▸ hne 0 n.succ_pos
    have hrest : ∀ i < n, s.memRead (a + 1 + BitVec.ofNat 16 i) ≠ 0 := fun i hi =>
      add_ofNat_succ a i ▸ hne (i + 1) (Nat.succ_lt_succ hi)
    calc stringLoop emit (n + 1 + k) a s
      _ = stringLoop emit (n + k + 1) a s := by rw [Nat.add_right_comm]
      _ = stringLoop emit (n + k) (a + 1) (s.wrote (emit (s.memRead a))) :=
        stringLoop_next hfirst (fun j hj => (Nat.le_add_right _ _).trans (ha j hj)) (n + k)
      _ = _ := ih (s := s.wrote (emit (s.memRead a))) hrest (acceptsWrites_wrote ha)
      _ = _ := by rw [wrote_append, add_ofNat_succ, stringBytes_succ]; rfl

/-- The loop ends at the first byte refused, which word `m` gives. -/
theorem stringLoop_failed {emit : Word → List Byte} {a : Word} {s : State} {k m : Nat} (hk : s.writesUntilFail = some k)
    (hne : ∀ i ≤ m, s.memRead (a + BitVec.ofNat 16 i) ≠ 0) (hlo : (s.stringBytes emit a m).length ≤ k)
    (hhi : k < (s.stringBytes emit a (m + 1)).length) (n : Nat) :
    stringLoop emit (m + (n + 1)) a s = .failed (s.wrote ((s.stringBytes emit a (m + 1)).take k)) := by
  have ha : s.acceptsWrites (s.stringBytes emit a m).length := fun j hj => Option.some.inj (hk.symm.trans hj) ▸ hlo
  have hleft : (s.wrote (s.stringBytes emit a m)).writesUntilFail = some (k - (s.stringBytes emit a m).length) := by
    rw [wrote_writesUntilFail, hk, Option.map_some]
  rw [stringBytes_snoc, List.length_append] at hhi
  calc stringLoop emit (m + (n + 1)) a s
    _ = stringLoop emit (n + 1) (a + BitVec.ofNat 16 m) (s.wrote (s.stringBytes emit a m)) :=
      stringLoop_add (fun i hi => hne i hi.le) ha (n + 1)
    _ = _ := stringLoop_refused (s := s.wrote (s.stringBytes emit a m)) (hne m le_rfl) hleft
      (show _ < (emit (s.memRead _)).length by omega) n
    _ = _ := by rw [wrote_append, stringBytes_snoc, List.take_append, List.take_of_length_le hlo]; rfl

/-- A loop that goes on met no terminator, and all its bytes were accepted. -/
theorem stringLoop_goesOn {emit : Word → List Byte} {a : Word} {s t : State} {n : Nat}
    (h : stringLoop emit n a s = .goesOn t) :
    (∀ i < n, s.memRead (a + BitVec.ofNat 16 i) ≠ 0) ∧ s.acceptsWrites (s.stringBytes emit a n).length := by
  induction n generalizing a s with
  | zero => exact ⟨fun i hi => absurd hi (Nat.not_lt_zero i), fun k _ => Nat.zero_le k⟩
  | succ n ih =>
    rw [stringLoop_succ] at h
    split at h
    · cases h
    · next hne =>
      rcases consoleWriteAll_cases s (emit (s.memRead a)) with ⟨ha, hw⟩ | ⟨k, -, -, hw⟩
      · rw [hw] at h
        obtain ⟨hrest, haccept⟩ := ih h
        refine ⟨fun i hi => ?_, ?_⟩
        · cases i with
          | zero => rwa [add_ofNat_zero]
          | succ i => exact add_ofNat_succ a i ▸ hrest i (Nat.lt_of_succ_lt_succ hi)
        · rw [stringBytes_succ, List.length_append]
          exact acceptsWrites_add ha haccept
      · rw [hw] at h
        cases h

/-! ### A turn of PUTS or PUTSP -/

/-- The first terminator of a string lies within one turn: the words repeat after 65536. -/
theorem lt_of_first_zero {s : State} {a : Word} {n : Nat} (hne : ∀ i < n, s.memRead (a + BitVec.ofNat 16 i) ≠ 0)
    (hend : s.memRead (a + BitVec.ofNat 16 n) = 0) : n < 65536 := by
  by_contra hn
  have hwrap : BitVec.ofNat 16 (n % 65536) = BitVec.ofNat 16 n := BitVec.eq_of_toNat_eq (by simp)
  exact hne (n % 65536) (by omega) (hwrap ▸ hend)

/-- A turn that meets a terminator completes after the bytes before it. -/
theorem writeString_ended {s : State} {emit : Word → List Byte} {n : Nat} (svc : Service)
    (hne : ∀ i < n, s.memRead (s.getReg 0 + BitVec.ofNat 16 i) ≠ 0)
    (hend : s.memRead (s.getReg 0 + BitVec.ofNat 16 n) = 0)
    (ha : s.acceptsWrites (s.stringBytes emit (s.getReg 0) n).length) :
    s.writeString svc emit = { s.wrote (s.stringBytes emit (s.getReg 0) n) with wait := none } := by
  obtain ⟨k, hk⟩ : ∃ k, 65536 = n + (k + 1) := ⟨65535 - n, by have := lt_of_first_zero hne hend; omega⟩
  have hloop : stringLoop emit 65536 (s.getReg 0) s = .ended (s.wrote (s.stringBytes emit (s.getReg 0) n)) := by
    rw [hk, stringLoop_add hne ha, stringLoop_succ, if_pos]
    exact hend
  rw [State.writeString, hloop]

/-- A turn whose write `k` is refused, at word `m`, keeps the bytes before it and faults. -/
theorem writeString_failed {s : State} {emit : Word → List Byte} {k m : Nat} (svc : Service)
    (hk : s.writesUntilFail = some k) (hm : m < 65536)
    (hne : ∀ i ≤ m, s.memRead (s.getReg 0 + BitVec.ofNat 16 i) ≠ 0)
    (hlo : (s.stringBytes emit (s.getReg 0) m).length ≤ k)
    (hhi : k < (s.stringBytes emit (s.getReg 0) (m + 1)).length) :
    s.writeString svc emit =
      { s with consoleOut := s.consoleOut ++ (s.stringBytes emit (s.getReg 0) (m + 1)).take k,
               writesUntilFail := some 0, wait := none, run := .faulted (.trapError .io) } := by
  obtain ⟨n, hn⟩ : ∃ n, 65536 = m + (n + 1) := ⟨65535 - m, by omega⟩
  have hlen : ((s.stringBytes emit (s.getReg 0) (m + 1)).take k).length = k := List.length_take_of_le hhi.le
  rw [State.writeString, hn, stringLoop_failed hk hne hlo hhi, wrote_all (by rw [hlen, hk])]
  rfl

/-- A turn round a memory without a terminator, all its bytes accepted, goes on. -/
theorem writeString_goesOn {s : State} {emit : Word → List Byte} (svc : Service) (hne : ∀ a, s.memRead a ≠ 0)
    (ha : s.acceptsWrites (s.stringBytes emit (s.getReg 0) 65536).length) :
    s.writeString svc emit = { s.wrote (s.stringBytes emit (s.getReg 0) 65536) with wait := some svc } := by
  have hloop : stringLoop emit 65536 (s.getReg 0) s = .goesOn (s.wrote (s.stringBytes emit (s.getReg 0) 65536)) :=
    stringLoop_add (k := 0) (fun _ _ => hne _) ha
  rw [State.writeString, hloop]

/-- The words of a turn are all of memory. -/
theorem memRead_ne_zero_of_turn {s : State} (a : Word)
    (h : ∀ i < 65536, s.memRead (a + BitVec.ofNat 16 i) ≠ 0) (b : Word) : s.memRead b ≠ 0 := by
  have hb : a + BitVec.ofNat 16 (b - a).toNat = b := by
    rw [BitVec.ofNat_toNat, BitVec.setWidth_eq, BitVec.add_comm, BitVec.sub_add_cancel]
  exact hb ▸ h (b - a).toNat (b - a).isLt

/-- A turn leaves its service waiting exactly when it met no terminator and no refused write. -/
theorem writeString_wait_iff (s : State) (svc : Service) (emit : Word → List Byte) :
    (s.writeString svc emit).wait = some svc ↔
      (∀ a, s.memRead a ≠ 0) ∧ s.acceptsWrites (s.stringBytes emit (s.getReg 0) 65536).length := by
  refine ⟨fun h => ?_, fun ⟨hne, ha⟩ => by rw [writeString_goesOn svc hne ha]⟩
  rw [State.writeString] at h
  split at h
  · cases h
  · cases h
  · next t ht =>
    obtain ⟨hne, ha⟩ := stringLoop_goesOn ht
    exact ⟨memRead_ne_zero_of_turn (s.getReg 0) hne, ha⟩

/-! ### The obligations -/

/-- Settles O25: the string of PUTS, a byte a word. -/
theorem putsWritesTheString : Obligations.PutsWritesTheString := by
  intro s n word hne hend ha
  have hlen : (s.stringBytes putsBytes (s.getReg 0) n).length = n := by
    rw [stringBytes_puts, List.length_map, List.length_range]
  have hturn : s.putsTurn = _ := writeString_ended .puts hne hend (emit := putsBytes) (by rwa [hlen])
  rw [stringBytes_puts] at hturn
  exact congrArg Host.Outcome.next hturn

/-- Settles O26: the packed string of PUTSP. -/
theorem putspWritesThePackedString : Obligations.PutspWritesThePackedString := by
  intro s n word bytes hne hend ha
  have hbytes : s.stringBytes putspBytes (s.getReg 0) n = bytes := stringBytes_putsp s (s.getReg 0) n
  have hturn : s.putspTurn = _ := writeString_ended .putsp hne hend (emit := putspBytes) (hbytes ▸ ha)
  rw [hbytes] at hturn
  exact congrArg Host.Outcome.next hturn

/-- Settles O27: for PUTS, word `m` gives write `m`. -/
theorem stringFailureKeepsTheBytesWritten : Obligations.StringFailureKeepsTheBytesWritten := by
  intro s k m word packed faulted hk hm hne
  constructor
  · rintro rfl
    have hlen (n : Nat) : (s.stringBytes putsBytes (s.getReg 0) n).length = n := by
      rw [stringBytes_puts, List.length_map, List.length_range]
    have hturn : s.putsTurn = _ := writeString_failed .puts hk hm hne (hlen k).le (by rw [hlen]; exact k.lt_succ_self)
    rw [stringBytes_puts] at hturn
    exact congrArg Host.Outcome.next hturn
  · intro hlo hhi
    have hbytes (n : Nat) : s.stringBytes putspBytes (s.getReg 0) n = (List.range n).flatMap packed :=
      stringBytes_putsp s (s.getReg 0) n
    have hturn : s.putspTurn = _ := writeString_failed .putsp hk hm hne (by rwa [hbytes]) (by rwa [hbytes])
    rw [hbytes] at hturn
    exact congrArg Host.Outcome.next hturn

/-- Settles O28: the wait of one turn, for PUTS and for PUTSP. -/
theorem stringServicesGoOnExactlyWithoutATerminator : Obligations.StringServicesGoOnExactlyWithoutATerminator := by
  intro s word packed goesOn
  have turn {i : Instr} {svc : Service} {emit : Word → List Byte} (hexec : exec i s = .next (s.writeString svc emit))
      (hresume : s.resume svc = s.writeString svc emit) :
      goesOn i svc (s.stringBytes emit (s.getReg 0) 65536) := by
    refine ⟨?_, fun hne ha => ?_, fun hrun hw => ?_⟩
    · rw [← writeString_wait_iff s svc emit, hexec]
      exact ⟨fun ⟨t, ht, hw⟩ => Host.Outcome.next.inj ht ▸ hw, fun hw => ⟨_, rfl, hw⟩⟩
    · rw [hexec, writeString_goesOn svc hne ha]
    · rw [step_waits hrun hw, hexec, hresume]
  have hputs := turn (i := .puts) (svc := .puts) (emit := putsBytes) rfl rfl
  have hputsp := turn (i := .putsp) (svc := .putsp) (emit := putspBytes) rfl rfl
  rw [stringBytes_puts] at hputs
  rw [stringBytes_putsp] at hputsp
  exact ⟨hputs, hputsp⟩

/-! ### A service that never completes -/

/-- `t` is still in the service of `s`: nothing but the console's streams changed, and no write fails. -/
structure StillIn (svc : Service) (s t : State) : Prop where
  run : t.run = .running
  wait : t.wait = some svc
  pc : t.pc = s.pc
  regs : t.regs = s.regs
  cc : t.cc = s.cc
  mem : t.mem = s.mem
  output : ∃ bs, t.consoleOut = s.consoleOut ++ bs
  writes : t.writesUntilFail = none

/-- A console that never fails accepts any number of writes. -/
theorem acceptsWrites_of_none {s : State} (h : s.writesUntilFail = none) (n : Nat) : s.acceptsWrites n :=
  fun _ hk => absurd (h.symm.trans hk) nofun

section

variable {svc : Service} {emit : Word → List Byte} {s : State} (hne : ∀ a, s.memRead a ≠ 0)
  (hresume : ∀ t : State, t.resume svc = t.writeString svc emit)
include hne hresume

/-- Inside the service a step is one more turn. -/
theorem StillIn.step_eq {t : State} (ht : StillIn svc s t) :
    step t = .next { t.wrote (t.stringBytes emit (t.getReg 0) 65536) with wait := some svc } := by
  have hmem (a : Word) : t.memRead a ≠ 0 := memRead_of_mem ht.mem a ▸ hne a
  rw [step_waits ht.run ht.wait, hresume, writeString_goesOn svc hmem (acceptsWrites_of_none ht.writes _)]

/-- One more turn stays inside the service. -/
theorem StillIn.keeps {t u : State} (ht : StillIn svc s t) (h : step t = .next u) : StillIn svc s u := by
  obtain rfl := Host.Outcome.next.inj ((ht.step_eq hne hresume).symm.trans h)
  obtain ⟨bs, hbs⟩ := ht.output
  refine ⟨ht.run, rfl, ht.pc, ht.regs, ht.cc, ht.mem, 
    ⟨bs ++ t.stringBytes emit (t.getReg 0) 65536, ?_⟩, ?_⟩
  · rw [← List.append_assoc, ← hbs]
    rfl
  · exact congrArg (Option.map _) ht.writes

/-- Every state reached from inside the service is inside it. -/
theorem StillIn.of_reaches {t u : State} (ht : StillIn svc s t) (h : Reaches t u) : StillIn svc s u :=
  h.invariant (fun _ _ hs hstep => hs.keeps hne hresume hstep)
    (fun _ _ hs => ⟨hs.run, hs.wait, hs.pc, hs.regs, hs.cc, hs.mem, hs.output, hs.writes⟩) ht

/-- The output grows without a bound: each turn writes a byte at least. -/
theorem StillIn.output_unbounded (hemit : ∀ w, emit w ≠ []) (hs : StillIn svc s s) (n : Nat) :
    ∃ u, Reaches s u ∧ n ≤ u.consoleOut.length := by
  induction n with
  | zero => exact ⟨s, .refl s, Nat.zero_le _⟩
  | succ n ih =>
    obtain ⟨u, hreach, hlen⟩ := ih
    refine ⟨_, .step hreach ((hs.of_reaches hne hresume hreach).step_eq hne hresume), ?_⟩
    have hturn := le_length_stringBytes hemit u (u.getReg 0) 65536
    show n + 1 ≤ (u.consoleOut ++ _).length
    rw [List.length_append]
    omega

end

/-- PUTS and PUTSP go on with a turn that gives every word a byte. -/
theorem resume_string {svc : Service} (h : svc = .puts ∨ svc = .putsp) :
    ∃ emit : Word → List Byte, (∀ w, emit w ≠ []) ∧ ∀ t : State, t.resume svc = t.writeString svc emit := by
  rcases h with rfl | rfl
  · exact ⟨putsBytes, fun _ => List.cons_ne_nil _ _, fun _ => rfl⟩
  · exact ⟨putspBytes, fun w => putspBytes_eq w ▸ List.cons_ne_nil _ _, fun _ => rfl⟩

/-- Settles O29: the service is never left, and its turns add output. -/
theorem stringServicesNeverEndWithoutATerminator : Obligations.StringServicesNeverEndWithoutATerminator := by
  intro s svc hrun hw hsvc hne hwrites
  obtain ⟨emit, hemit, hresume⟩ := resume_string hsvc
  have hs : StillIn svc s s := ⟨hrun, hw, rfl, rfl, rfl, rfl, ⟨[], (List.append_nil _).symm⟩, hwrites⟩
  refine ⟨fun t hreach => ?_, hs.output_unbounded hne hresume hemit⟩
  have ht := hs.of_reaches hne hresume hreach
  exact ⟨ht.run, ht.wait, ht.pc, ht.regs, ht.cc, ht.mem, ht.output⟩

end Sys2Proof.Machine
end

section
/-! PROOFS. What an instruction does not look at: registers it does not read (10_state.md R22), O40, and replies it does
not ask for (60_exceptions.md R206), O41. -/

namespace Sys2Proof.Machine

/-! ### Changes the console writes do not see -/

/-- A change of the state that reads of memory and writes to the console do not see. -/
structure Unseen (g : State → State) : Prop where
  memRead (s : State) (a : Word) : (g s).memRead a = s.memRead a
  consoleWrite (s : State) (b : Byte) : (g s).consoleWrite b = (s.consoleWrite b).map g
  wait (s : State) (w : Option Service) : ({ g s with wait := w } : State) = g { s with wait := w }
  ioFault (s : State) : (g s).ioFault = g s.ioFault

theorem setReg_unseen (r : Reg) (v : Word) : Unseen (·.setReg r v) where
  memRead _ _ := rfl
  consoleWrite s b := by
    obtain ⟨regs, pc, cc, mem, run, wait, cin, cout, wuf⟩ := s
    rcases wuf with _ | _ | k <;> rfl
  wait _ _ := rfl
  ioFault _ := rfl

/-- The state with other replies to come. -/
def State.withReplies (s : State) (q : List ReadReply) : State := { s with consoleIn := q }

theorem withReplies_unseen (q : List ReadReply) : Unseen (·.withReplies q) where
  memRead _ _ := rfl
  consoleWrite s b := by
    obtain ⟨regs, pc, cc, mem, run, wait, cin, cout, wuf⟩ := s
    rcases wuf with _ | _ | k <;> rfl
  wait _ _ := rfl
  ioFault _ := rfl

section

variable {g : State → State} (hg : Unseen g)
include hg

/-- What follows a write commutes with an unseen change when its continuation does. -/
theorem Unseen.andThen {k : State → State} (hk : ∀ s, k (g s) = g (k s)) (w : Written) :
    (w.map g).andThen k = g (w.andThen k) := by
  cases w with
  | ok s => exact hk s
  | failed s => exact hg.ioFault s

/-- OUT sees R0 alone. -/
theorem Unseen.execOut {s : State} (h0 : (g s).getReg 0 = s.getReg 0) : execOut (g s) = mapNext g (execOut s) := by
  rw [Machine.execOut, h0, hg.consoleWrite, hg.andThen (k := id) fun _ => rfl]
  rfl

/-- A turn of PUTS or PUTSP sees R0 and memory. -/
theorem Unseen.writeString {s : State} (h0 : (g s).getReg 0 = s.getReg 0) (svc : Service) (emit : Word → List Byte) :
    (g s).writeString svc emit = g (s.writeString svc emit) := by
  rw [State.writeString, State.writeString, h0, stringLoop_map hg.memRead hg.consoleWrite]
  cases stringLoop emit 65536 (s.getReg 0) s with
  | ended t => exact hg.wait t none
  | failed t => exact (congrArg State.ioFault (hg.wait t none)).trans (hg.ioFault _)
  | goesOn t => exact hg.wait t (some svc)

/-- IN sees what its read sees. -/
theorem Unseen.inWith (hread : ∀ s : State, (g s).inRead = g s.inRead) (s : State) (prompt : List Byte) :
    (g s).inWith prompt = g (s.inWith prompt) := by
  rw [State.inWith, State.inWith, consoleWriteAll_map hg.consoleWrite, hg.andThen hread]

end

/-- BR sees cc and its target alone. -/
theorem exec_br_map {g : State → State} {s : State} (n z p : Bool) (off : BitVec 9) (hcc : (g s).cc = s.cc)
    (hjump : (g s).setPc ((g s).pcRel off) = g (s.setPc (s.pcRel off))) :
    exec (.br n z p off) (g s) = mapNext g (exec (.br n z p off) s) := by
  rw [exec, exec, execBr, execBr, hcc, hjump]
  split <;> rfl

/-! ### Registers not read -/

/-- Another value of a register beforehand leaves that register changed and nothing else, or nothing where `i` overwrites
it; R0 after GETC and IN is left to the replies. -/
def IgnoresReg (i : Instr) (s : State) (r : Reg) (v : Word) : Prop :=
  (destReg i ≠ some r → exec i (s.setReg r v) = mapNext (·.setReg r v) (exec i s)) ∧
    (destReg i = some r → isTrap i = false → exec i (s.setReg r v) = exec i s)

section

variable {i : Instr} {s : State} {r : Reg} {v : Word}

/-- An instruction that sets one register and cc to a value that does not see `r`. -/
theorem ignoresReg_of_result {dr : Reg} {val : State → Word} (hdest : destReg i = some dr)
    (hexec : ∀ t, exec i t = .next (t.writeResult dr (val t))) (hval : val (s.setReg r v) = val s) :
    IgnoresReg i s r v := by
  simp only [IgnoresReg, hexec, hval]
  refine ⟨fun hr => ?_, fun hr _ => ?_⟩
  · have hne : dr ≠ r := fun e => hr (hdest.trans (congrArg some e))
    exact congrArg (fun t : State => Host.Outcome.next (t.setCc (ccOf (val s)))) (setReg_setReg_comm s hne.symm v (val s))
  · obtain rfl : dr = r := Option.some.inj (hdest.symm.trans hr)
    exact congrArg (fun t : State => Host.Outcome.next (t.setCc (ccOf (val s)))) (setReg_setReg_same s dr v (val s))

/-- A call to a target that does not see `r`. -/
theorem ignoresReg_of_call {target : State → Word} (hdest : destReg i = some 7)
    (hexec : ∀ t, exec i t = .next (t.call (target t))) (htarget : target (s.setReg r v) = target s) :
    IgnoresReg i s r v := by
  simp only [IgnoresReg, hexec, htarget]
  refine ⟨fun hr => ?_, fun hr _ => ?_⟩
  · have hne : 7 ≠ r := fun e => hr (hdest.trans (congrArg some e))
    exact congrArg Host.Outcome.next (setReg_setReg_comm (s.setPc (target s)) hne.symm v s.pc)
  · obtain rfl : 7 = r := Option.some.inj (hdest.symm.trans hr)
    exact congrArg Host.Outcome.next (setReg_setReg_same (s.setPc (target s)) 7 v s.pc)

/-- An instruction without a destination. -/
theorem ignoresReg_of_none (hdest : destReg i = none)
    (h : exec i (s.setReg r v) = mapNext (·.setReg r v) (exec i s)) : IgnoresReg i s r v :=
  ⟨fun _ => h, fun hr => absurd (hdest.symm.trans hr) nofun⟩

/-- A TRAP. -/
theorem ignoresReg_of_trap (htrap : isTrap i = true)
    (h : destReg i ≠ some r → exec i (s.setReg r v) = mapNext (·.setReg r v) (exec i s)) : IgnoresReg i s r v :=
  ⟨h, fun _ hi => absurd (hi.symm.trans htrap) nofun⟩

/-- A read of GETC sees no register but R0, which it overwrites. -/
theorem getcRead_setReg (hr : r ≠ 0) : (s.setReg r v).getcRead = s.getcRead.setReg r v := by
  obtain ⟨regs, pc, cc, mem, run, wait, cin, cout, wuf⟩ := s
  rcases cin with _ | ⟨b | _, rest⟩
  · rfl
  · exact setReg_setReg_comm ⟨regs, pc, cc, mem, run, none, rest, cout, wuf⟩ hr v (zext b)
  · rfl

/-- A read and echo of IN see no register but R0, which IN overwrites. -/
theorem inRead_setReg (hr : r ≠ 0) (s : State) : (s.setReg r v).inRead = s.inRead.setReg r v := by
  obtain ⟨regs, pc, cc, mem, run, wait, cin, cout, wuf⟩ := s
  rcases cin with _ | ⟨b | _, rest⟩
  · rfl
  · have hg := setReg_unseen r v
    have hk (t : State) : (t.setReg r v).setReg 0 (zext b) = (t.setReg 0 (zext b)).setReg r v :=
      setReg_setReg_comm t hr v (zext b)
    have hwrite := hg.consoleWrite ⟨regs, pc, cc, mem, run, none, rest, cout, wuf⟩ b
    exact (congrArg (Written.andThen · _) hwrite).trans (hg.andThen (k := (·.setReg 0 (zext b))) hk _)
  · rfl

/-- GETC reads no register. -/
theorem ignoresReg_getc : IgnoresReg .getc s r v :=
  ignoresReg_of_trap rfl fun hr => congrArg Host.Outcome.next (getcRead_setReg fun e => hr (congrArg some e.symm))

/-- IN reads no register. -/
theorem ignoresReg_inp : IgnoresReg .inp s r v :=
  ignoresReg_of_trap rfl fun hr => congrArg Host.Outcome.next <|
    (setReg_unseen r v).inWith (inRead_setReg fun e => hr (congrArg some e.symm)) s inPrompt

/-! OUT, PUTS and PUTSP read R0. -/

section

variable (h0 : (s.setReg r v).getReg 0 = s.getReg 0)
include h0

theorem ignoresReg_out : IgnoresReg .out s r v :=
  ignoresReg_of_none rfl ((setReg_unseen r v).execOut h0)

theorem ignoresReg_puts : IgnoresReg .puts s r v :=
  ignoresReg_of_none rfl (congrArg Host.Outcome.next ((setReg_unseen r v).writeString h0 .puts putsBytes))

theorem ignoresReg_putsp : IgnoresReg .putsp s r v :=
  ignoresReg_of_none rfl (congrArg Host.Outcome.next ((setReg_unseen r v).writeString h0 .putsp putspBytes))

end

/-- TRAP under its own name reads what its service reads. -/
theorem ignoresReg_trap (vect : BitVec 8)
    (reads : ∀ q ∈ sourceRegs (.trap vect), (s.setReg r v).getReg q = s.getReg q) : IgnoresReg (.trap vect) s r v := by
  rcases vector_cases vect with rfl | rfl | rfl | rfl | rfl | rfl | hv
  · exact ignoresReg_getc
  · exact ignoresReg_out (reads 0 (by decide))
  · exact ignoresReg_puts (reads 0 (by decide))
  · exact ignoresReg_inp
  · exact ignoresReg_putsp (reads 0 (by decide))
  · exact ignoresReg_of_trap rfl fun _ => rfl
  · refine ignoresReg_of_trap rfl fun _ => ?_
    rw [exec_trap_unknown hv, exec_trap_unknown hv]
    rfl

/-- An instruction to which the registers it reads are the same does not see `r`. -/
theorem ignoresReg_of_reads (i : Instr) (reads : ∀ q ∈ sourceRegs i, (s.setReg r v).getReg q = s.getReg q) :
    IgnoresReg i s r v := by
  cases i with
  | addReg dr sr1 sr2 =>
    refine ignoresReg_of_result (val := fun t => t.getReg sr1 + t.getReg sr2) rfl (fun _ => rfl) ?_
    rw [reads sr1 (by simp [sourceRegs]), reads sr2 (by simp [sourceRegs])]
  | addImm dr sr1 imm =>
    refine ignoresReg_of_result (val := fun t => t.getReg sr1 + sext imm) rfl (fun _ => rfl) ?_
    rw [reads sr1 (by simp [sourceRegs])]
  | andReg dr sr1 sr2 =>
    refine ignoresReg_of_result (val := fun t => t.getReg sr1 &&& t.getReg sr2) rfl (fun _ => rfl) ?_
    rw [reads sr1 (by simp [sourceRegs]), reads sr2 (by simp [sourceRegs])]
  | andImm dr sr1 imm =>
    refine ignoresReg_of_result (val := fun t => t.getReg sr1 &&& sext imm) rfl (fun _ => rfl) ?_
    rw [reads sr1 (by simp [sourceRegs])]
  | not dr sr =>
    refine ignoresReg_of_result (val := fun t => ~~~(t.getReg sr)) rfl (fun _ => rfl) ?_
    rw [reads sr (by simp [sourceRegs])]
  | ld dr off => exact ignoresReg_of_result (val := fun t => t.memRead (t.pcRel off)) rfl (fun _ => rfl) rfl
  | ldi dr off => exact ignoresReg_of_result (val := fun t => t.memRead (t.indirect off)) rfl (fun _ => rfl) rfl
  | lea dr off => exact ignoresReg_of_result (val := fun t => t.pcRel off) rfl (fun _ => rfl) rfl
  | ldr dr base off =>
    refine ignoresReg_of_result (val := fun t => t.memRead (t.baseRel base off)) rfl (fun _ => rfl) ?_
    rw [State.baseRel, reads base (by simp [sourceRegs])]
    rfl
  | jsr off => exact ignoresReg_of_call (target := fun t => t.pcRel off) rfl (fun _ => rfl) rfl
  | jsrr base => exact ignoresReg_of_call (target := fun t => t.getReg base) rfl (fun _ => rfl) (reads base (by simp [sourceRegs]))
  | br n z p off => exact ignoresReg_of_none rfl (exec_br_map (g := (·.setReg r v)) n z p off rfl rfl)
  | st sr off =>
    refine ignoresReg_of_none rfl ?_
    rw [exec, execSt, reads sr (by simp [sourceRegs])]
    rfl
  | sti sr off =>
    refine ignoresReg_of_none rfl ?_
    rw [exec, execSti, reads sr (by simp [sourceRegs])]
    rfl
  | str sr base off =>
    refine ignoresReg_of_none rfl ?_
    rw [exec, execStr, State.baseRel, reads sr (by simp [sourceRegs]), reads base (by simp [sourceRegs])]
    rfl
  | jmp base =>
    refine ignoresReg_of_none rfl ?_
    rw [exec, execJmp, reads base (by simp [sourceRegs])]
    rfl
  | ret =>
    refine ignoresReg_of_none rfl ?_
    rw [exec, execRet, reads 7 (by simp [sourceRegs])]
    rfl
  | rti | reserved | halt => exact ignoresReg_of_none rfl rfl
  | getc => exact ignoresReg_getc
  | inp => exact ignoresReg_inp
  | out => exact ignoresReg_out (reads 0 (by decide))
  | puts => exact ignoresReg_puts (reads 0 (by decide))
  | putsp => exact ignoresReg_putsp (reads 0 (by decide))
  | trap vect => exact ignoresReg_trap vect reads

end

/-- Settles O40: a register that is no source reads differently, and every source reads the same. -/
theorem registersNotReadDoNotMatter : Obligations.RegistersNotReadDoNotMatter := by
  intro i s r v hr
  refine ignoresReg_of_reads i fun q hq => ?_
  have hne : q ≠ r := fun e => hr (e ▸ hq)
  rw [getReg_setReg, if_neg hne]

/-! ### Replies not asked for -/

/-- TRAP under its own name, when its service is not GETC or IN. -/
theorem exec_trap_withReplies {vect : BitVec 8} (hi : readsConsole (.trap vect) = false) (s : State)
    (q : List ReadReply) : exec (.trap vect) (s.withReplies q) = mapNext (·.withReplies q) (exec (.trap vect) s) := by
  have hg := withReplies_unseen q
  rcases vector_cases vect with rfl | rfl | rfl | rfl | rfl | rfl | hv
  · exact absurd hi (by decide)
  · exact hg.execOut rfl
  · exact congrArg Host.Outcome.next (hg.writeString rfl .puts putsBytes)
  · exact absurd hi (by decide)
  · exact congrArg Host.Outcome.next (hg.writeString rfl .putsp putspBytes)
  · rfl
  · rw [exec_trap_unknown hv, exec_trap_unknown hv]
    rfl

/-- Settles O41: OUT, PUTS and PUTSP write and read memory, and the other instructions do not touch the console. -/
theorem repliesMatterOnlyToGetcAndIn : Obligations.RepliesMatterOnlyToGetcAndIn := by
  intro i s q hi
  have hg := withReplies_unseen q
  cases i with
  | trap vect => exact exec_trap_withReplies hi s q
  | getc | inp => cases hi
  | out => exact hg.execOut rfl
  | puts => exact congrArg Host.Outcome.next (hg.writeString rfl .puts putsBytes)
  | putsp => exact congrArg Host.Outcome.next (hg.writeString rfl .putsp putspBytes)
  | br n z p off => exact exec_br_map (g := (·.withReplies q)) n z p off rfl rfl
  | _ => rfl

end Sys2Proof.Machine
end

section
/-! PROOFS. The arithmetic of ADD, AND and NOT (40_operate.md R105), O44. -/

namespace Sys2Proof.Machine

/-- The signed sum is the exact one but for a multiple of 65536. -/
theorem toInt_add_wraps (a b : Word) : ∃ k : Int, (a + b).toInt = a.toInt + b.toInt + 65536 * k := by
  refine ⟨-(a.toInt + b.toInt).bdiv 65536, ?_⟩
  have hsplit := Int.bmod_add_bdiv (a.toInt + b.toInt) 65536
  have hsum : (a + b).toInt = (a.toInt + b.toInt).bmod 65536 := BitVec.toInt_add a b
  push_cast at hsplit
  omega

/-- Settles O44: each result is written whole, its bits by the word operation. -/
theorem aluComputesModulo : Obligations.AluComputesModulo := by
  intro s dr sr1 sr2 imm a reads sum conj
  have hreg (v : Word) : (s.writeResult dr v).getReg dr = v := (getReg_writeResult s dr dr v).trans (if_pos rfl)
  have hreads (v : Word) : reads (s.writeResult dr v) := by
    obtain ⟨hN, hZ, hP⟩ := ccOf_eq_iff_sign v
    simp only [reads, hreg]
    exact ⟨hN, hZ, hP, rfl⟩
  have hsum {i : Instr} {b : Word} (h : exec i s = .next (s.writeResult dr (a + b))) : sum i b := by
    refine ⟨_, h, hreads _, ?_⟩
    rw [hreg]
    exact ⟨BitVec.toNat_add a b, toInt_add_wraps a b⟩
  have hconj {i : Instr} {b : Word} (h : exec i s = .next (s.writeResult dr (a &&& b))) : conj i b := by
    refine ⟨_, h, hreads _, fun j => ?_⟩
    rw [hreg, BitVec.getLsbD_and]
  refine ⟨hsum rfl, hsum rfl, hconj rfl, hconj rfl, _, rfl, hreads _, fun j hj => ?_⟩
  rw [hreg, BitVec.getLsbD_not, decide_eq_true hj, Bool.true_and]

end Sys2Proof.Machine
end

section
/-! PROOFS. Memory (20_memory.md R50 to R56): reads after stores, the canonical form, a store to the next instruction,
and the wire image, O45 to O47 and O50. -/

namespace Sys2Proof.Machine

/-! ### Stores and reads -/

/-- Stores keep memory canonical. -/
theorem foldl_memWrite_wf {s : State} (h : s.mem.wf) (stores : List (Word × Word)) :
    (stores.foldl (fun t w => t.memWrite w.1 w.2) s).mem.wf := by
  induction stores generalizing s with
  | nil => exact h
  | cons w ws ih => exact ih (memWrite_wf h w.1 w.2)

/-- Settles O45, by induction from the last store back. -/
theorem readReturnsTheLatestWrite : Obligations.ReadReturnsTheLatestWrite := by
  intro s stores a hmem
  induction stores using List.reverseRecOn with
  | nil => rfl
  | append_singleton stores w ih =>
    have hwf := foldl_memWrite_wf hmem stores
    rw [List.foldl_append, List.foldl_cons, List.foldl_nil, memRead_memWrite hwf, ih, List.reverse_append,
      List.reverse_singleton, List.singleton_append, List.find?_cons]
    by_cases hw : a = w.1
    · simp [hw]
    · have hne : (w.1 == a) = false := by simpa using Ne.symm hw
      simp [hw, hne]

/-! ### The canonical form -/

/-- A word that differs from an unlisted one is listed where it is read. -/
theorem Memory.mem_of_read {m : Memory} {a : Nat} {w : Word} (h : m.read a = w) (hw : w ≠ Memory.unlisted) :
    (a, w) ∈ m := by
  induction m with
  | nil => exact absurd h.symm hw
  | cons c m ih =>
    by_cases hc : c.1 = a
    · have hval : c.2 = w := by simpa [Memory.read, hc] using h
      exact List.mem_cons.mpr (.inl (Prod.ext hc.symm hval.symm))
    · exact List.mem_cons_of_mem c (ih (by simpa [Memory.read, hc] using h))

/-- In a canonical memory a listed word is the one read. -/
theorem Memory.read_of_mem {m : Memory} (hm : m.wf) {c : Cell} (h : c ∈ m) : m.read c.1 = c.2 := by
  induction m with
  | nil => cases h
  | cons d m ih =>
    rcases List.mem_cons.mp h with rfl | h
    · simp [Memory.read]
    · have hlt : d.1 < c.1 := (List.pairwise_cons.mp hm.1).1 c h
      simp [Memory.read, hlt.ne, ih (Memory.wf_tail hm) h]

/-- A canonical memory lists nothing that another with the same reads does not list. -/
theorem Memory.subset_of_reads {m n : Memory} (hm : m.wf) (h : ∀ a : Word, m.read a.toNat = n.read a.toNat) : m ⊆ n := by
  intro c hc
  obtain ⟨hlt, hne⟩ := hm.2 c hc
  have hsame : m.read c.1 = n.read c.1 := h (BitVec.ofNatLT c.1 hlt)
  have hread : n.read c.1 = c.2 := hsame.symm.trans (Memory.read_of_mem hm hc)
  exact Memory.mem_of_read hread hne

/-- Settles O46: the two lists have the same cells, in the order of their addresses. -/
theorem canonicalMemoriesAreFixedByTheirReads : Obligations.CanonicalMemoriesAreFixedByTheirReads := by
  intro m n hm hn h
  have hmn : m ⊆ n := Memory.subset_of_reads hm h
  have hnm : n ⊆ m := Memory.subset_of_reads hn fun a => (h a).symm
  have hirrefl : Std.Irrefl fun c d : Cell => c.1 < d.1 := ⟨fun c => lt_irrefl c.1⟩
  have hantisymm : Std.Antisymm fun c d : Cell => c.1 < d.1 := ⟨fun _ _ hcd hdc => absurd hcd hdc.not_gt⟩
  exact List.Subset.antisymm_of_pairwise hm.1 hn.1 hmn hnm

/-! ### A store to the next instruction -/

/-- An instruction with a store address is one store of its register. -/
theorem exec_of_storeAddr {i : Instr} {s : State} {a : Word} (h : storeAddr i s = some a) :
    ∃ sr, storedReg i = some sr ∧ exec i s = .next (s.memWrite a (s.getReg sr)) := by
  cases i with
  | st sr | sti sr | str sr =>
    cases h
    exact ⟨sr, rfl, rfl⟩
  | _ => cases h

/-- Settles O47: the store leaves its register's word at the pc, where the next step fetches. -/
theorem aStoreIsSeenByTheNextFetch : Obligations.AStoreIsSeenByTheNextFetch := by
  intro s hmem hs haddr
  obtain ⟨sr, hsr, hexec⟩ := exec_of_storeAddr haddr
  have hread : (s.advance.memWrite (s.pc + 1) (s.getReg sr)).memRead (s.pc + 1) = s.getReg sr := by
    rw [memRead_memWrite (s := s.advance) hmem, if_pos rfl]
  refine ⟨sr, _, hsr, (step_fetches hs).trans hexec, rfl, hread, ?_⟩
  exact step_of_encodes (s := s.advance.memWrite (s.pc + 1) (s.getReg sr)) hs hread (encodes_decode _)

/-! ### The wire image -/

/-- A word is its high byte and then its low byte. -/
theorem highByte_append_lowByte (w : Word) : w.extractLsb' 8 8 ++ w.extractLsb' 0 8 = w :=
  (BitVec.extractLsb'_append_extractLsb'_eq_extractLsb' rfl).trans BitVec.extractLsb'_eq_self

/-- The bytes of words, high byte first, are read back as the words. -/
theorem wordsOfBytes_bigEndian (words : List Word) :
    wordsOfBytes (words.flatMap fun w => [w.extractLsb' 8 8, w.extractLsb' 0 8]) = .ok words := by
  induction words with
  | nil => rfl
  | cons w ws ih =>
    rw [List.flatMap_cons, List.cons_append, List.singleton_append, wordsOfBytes, ih, highByte_append_lowByte]

/-- An odd count of bytes is malformed. -/
theorem wordsOfBytes_odd {bytes : List Byte} (h : bytes.length % 2 = 1) :
    wordsOfBytes bytes = .error .malformedImage := by
  induction bytes using wordsOfBytes.induct with
  | case1 => cases h
  | case2 => rfl
  | case3 b0 b1 rest ws hws ih | case4 b0 b1 rest ws hws ih =>
    have hrest : rest.length % 2 = 1 := by
      simp only [List.length_cons] at h
      omega
    rw [wordsOfBytes, ih hrest]

/-- Settles O50: the empty image has no origin, an odd one no last word, and every other image is its words. -/
theorem wireImageIsBigEndian : Obligations.WireImageIsBigEndian := by
  refine ⟨fun bytes h => ?_, fun origin words => ?_⟩
  · by_cases hodd : bytes.length % 2 = 1
    · rw [parseImage, wordsOfBytes_odd hodd]
    · obtain rfl : bytes = [] := List.length_eq_zero_iff.mp (by omega)
      rfl
  · rw [parseImage, wordsOfBytes_bigEndian]

end Sys2Proof.Machine
end
